-- ==== Sys2Proof/Word.lean ====
section
/-! DEFINITION. The word types of the block and nothing else: a register is 32 bits (rule R6, REG_W), a BUF
location 8 bits (rule R33), a nibble 4 bits and a protocol word 16 bits (rule R6, last paragraph). -/

namespace Sys2Proof

/-- A register, an operand, a command word (rules R6, R18). -/
abbrev Word := BitVec 32

/-- A BUF location, a flag byte, a packed byte, an ASCII character (rules R14, R33, R67). -/
abbrev Byte := BitVec 8

/-- A hex digit's value (rule R16, Nibble). -/
abbrev Nibble := BitVec 4

/-- A protocol word, half of a word pair (rule R16, Protocol word pair). -/
abbrev HalfWord := BitVec 16

end Sys2Proof
end

