-- ==== Sys2Proof/Machine/Script.lean ====
section
/-! DEFINITION. The host's side as syntax (30_encoding.md rules R18, R61, R62): register names, host expressions,
host-script lines and pseudo-instructions. What they do is in Machine/Bus.lean, Machine/HostScript.lean and
Machine/Assembler.lean. -/

namespace Sys2Proof.Machine

/-- The eight registers a host access can name (rule R18). -/
inductive Reg where
  | opa | opb | opc | opd | cmd | res0 | res1 | status
deriving DecidableEq, Repr

/-- The comparisons of host arithmetic (rule R62 "comparison"; programs P1-P5 use `!=` and `<`). -/
inductive Cmp where
  | eq | ne | lt | le | gt | ge
deriving DecidableEq, Repr

/-- Host arithmetic on variables and literals (rule R62: "unbounded integers, `&`, `+`, comparison"). A variable is
named by a number. -/
inductive Expr where
  | lit (n : Nat)
  | var (x : Nat)
  | add (a b : Expr)
  | band (a b : Expr)
  | cmp (op : Cmp) (a b : Expr)
deriving DecidableEq, Repr

/-- A host-script line (rule R62). A register access names its width and offset, because the block decodes both
(rule R52); `Line.wr` and `Line.rd` (Machine/Assembler.lean) are the accesses by register name. -/
inductive Line where
  /-- RegWrite: `WR reg, v`. -/
  | regWrite (width off : Nat) (v : Expr)
  /-- RegRead: `RD reg`, or `RD reg -> $x` when a variable is given. -/
  | regRead (width off : Nat) (into : Option Nat)
  /-- `WAIT`: `RD STATUS` until BUSY = 0. -/
  | wait
  /-- `BW addr, b`. -/
  | bufWrite (addr b : Expr)
  /-- `BR addr`, or `BR addr -> $x` when a variable is given. -/
  | bufRead (addr : Expr) (into : Option Nat)
  /-- `$x <- expr`. -/
  | assign (x : Nat) (e : Expr)
  /-- `label:`; a label is named by a number. -/
  | label (l : Nat)
  /-- `IF cond GOTO label`. -/
  | branch (cond : Expr) (l : Nat)
  /-- `GOTO label`. -/
  | goto (l : Nat)
deriving DecidableEq, Repr

/-- The eleven pseudo-instructions, each with its operands in the document's order (rule R61). -/
inductive Pseudo where
  | expandByteToBits (dst idx value : Expr)
  | expandBytesToBits (dst idx count src : Expr)
  | packBitsToByte (src idx count : Expr)
  | decodeFloatBe (w0 w1 : Expr)
  | decodeFloatSwapped (w0 w1 : Expr)
  | encodeFloatBe (f : Expr)
  | encodeFloatSwapped (f : Expr)
  | bswap32 (v : Expr)
  | nibbleToHexChar (n : Expr)
  | byteToHexPair (b : Expr)
  | hexPairToByte (buf pos : Expr)
deriving DecidableEq, Repr

/-- A line of a host script as it is written: a line of rule R62 or a pseudo-instruction of rule R61. -/
inductive Source where
  | line (l : Line)
  | pseudo (p : Pseudo)
deriving DecidableEq, Repr

end Sys2Proof.Machine
end

