-- ==== Sys2Proof/Syntax.lean ====
section
/-! DEFINITION. The instructions: the eleven commands of rule R55, one constructor for each row of
spec/opcode_table.json. A command word has no register fields and no immediate fields (rule R53), so no constructor has
arguments: the operands are the latched operand registers (rule R10). -/

namespace Sys2Proof

/-- The eleven commands (rules R2, R55). -/
inductive Instr where
  /-- EXPAND_BYTE, rule R68. -/
  | expandByte
  /-- EXPAND_BYTES, rule R69. -/
  | expandBytes
  /-- PACK_BITS, rule R70. -/
  | packBits
  /-- DECODE_FLOAT_ABCD, rule R75. -/
  | decodeFloatAbcd
  /-- DECODE_FLOAT_DCBA, rule R76. -/
  | decodeFloatDcba
  /-- ENCODE_FLOAT_ABCD, rule R77. -/
  | encodeFloatAbcd
  /-- ENCODE_FLOAT_DCBA, rule R78. -/
  | encodeFloatDcba
  /-- BSWAP32, rule R83. -/
  | bswap32
  /-- NIBBLE_TO_HEX, rule R88. -/
  | nibbleToHex
  /-- BYTE_TO_HEX, rule R89. -/
  | byteToHex
  /-- HEX_TO_BYTE, rule R90. -/
  | hexToByte
deriving DecidableEq, Repr

end Sys2Proof
end

