-- ==== Sys2Proof/WellFormed.lean ====
section
/-! DEFINITION. What makes a term well formed, as checks that run. A command has no fields (rule R53), so every
instruction is well formed; the checks with something to refuse are those on the host's script (rules R52, R61, R62). -/

namespace Sys2Proof

/-- Every command is well formed: the command word has no register fields and no immediate fields (rule R53). -/
def Instr.wellFormed (i : Instr) : Bool :=
  match i with
  | .expandByte => true
  | .expandBytes => true
  | .packBits => true
  | .decodeFloatAbcd => true
  | .decodeFloatDcba => true
  | .encodeFloatAbcd => true
  | .encodeFloatDcba => true
  | .bswap32 => true
  | .nibbleToHex => true
  | .byteToHex => true
  | .hexToByte => true

namespace Machine

/-- A literal written where a line takes a value of `n` bits fits in them (rule R61: "fits in 32 bits"). What an
expression over variables gives is not known before the script runs, so it is not refused here. -/
def Expr.literalFits (n : Nat) (e : Expr) : Bool :=
  match e with
  | .lit v => decide (v < 2 ^ n)
  | .var _ => true
  | .add _ _ => true
  | .band _ _ => true
  | .cmp _ _ _ => true

/-- An access the block decodes: 32 bits wide, at an offset 0x00, 0x04, ..., 0x1C (rule R52). -/
def accessDecoded (width off : Nat) : Bool := width == 32 && off % 4 == 0 && off < 0x20

/-- The labels a script defines. -/
def labelsOf (script : List Line) : List Nat :=
  match script with
  | [] => []
  | .label l :: rest => l :: labelsOf rest
  | .regWrite _ _ _ :: rest => labelsOf rest
  | .regRead _ _ _ :: rest => labelsOf rest
  | .wait :: rest => labelsOf rest
  | .bufWrite _ _ :: rest => labelsOf rest
  | .bufRead _ _ :: rest => labelsOf rest
  | .assign _ _ :: rest => labelsOf rest
  | .branch _ _ :: rest => labelsOf rest
  | .goto _ :: rest => labelsOf rest

/-- The checks on one line of a script whose labels are `labels`: decoded accesses, literals that fit their access
(a register value in 32 bits, a BUF byte in 8), jumps to labels the script has. -/
def Line.wellFormed (labels : List Nat) (l : Line) : Bool :=
  match l with
  | .regWrite width off v => accessDecoded width off && v.literalFits 32
  | .regRead width off _ => accessDecoded width off
  | .wait => true
  | .bufWrite _ b => b.literalFits 8
  | .bufRead _ _ => true
  | .assign _ _ => true
  | .label _ => true
  | .branch _ l => labels.contains l
  | .goto l => labels.contains l

/-- No element stands twice. -/
def noRepeats (l : List Nat) : Bool :=
  match l with
  | [] => true
  | x :: rest => !rest.contains x && noRepeats rest

/-- A script is well formed: every line is, and no label is defined twice. -/
def scriptWellFormed (script : List Line) : Bool :=
  script.all (fun l => l.wellFormed (labelsOf script)) && noRepeats (labelsOf script)

/-- A pseudo-instruction is well formed: each literal operand fits in 32 bits (rule R61). -/
def Pseudo.wellFormed (p : Pseudo) : Bool :=
  match p with
  | .expandByteToBits a b c => a.literalFits 32 && b.literalFits 32 && c.literalFits 32
  | .expandBytesToBits a b c d => a.literalFits 32 && b.literalFits 32 && c.literalFits 32 && d.literalFits 32
  | .packBitsToByte a b c => a.literalFits 32 && b.literalFits 32 && c.literalFits 32
  | .decodeFloatBe a b => a.literalFits 32 && b.literalFits 32
  | .decodeFloatSwapped a b => a.literalFits 32 && b.literalFits 32
  | .encodeFloatBe a => a.literalFits 32
  | .encodeFloatSwapped a => a.literalFits 32
  | .bswap32 a => a.literalFits 32
  | .nibbleToHexChar a => a.literalFits 32
  | .byteToHexPair a => a.literalFits 32
  | .hexPairToByte a b => a.literalFits 32 && b.literalFits 32

end Machine

end Sys2Proof
end

