-- ==== Sys2Proof/Decode.lean ====
section
/-! DEFINITION. The command word (rules R53, R55, R58, R59): a decoder total on every 32-bit word, rejecting by name,
and an encoder written from the opcode map of rule R55. -/

namespace Sys2Proof

/-- The two ways a command word is illegal (rule R59). -/
inductive IllegalWord where
  /-- `w[31:4] ≠ 0`. -/
  | reservedBitsSet
  /-- `w[3:0]` is 0x0 or 0xC..0xF. -/
  | opcodeUnassigned
deriving DecidableEq, Repr

/-- OP, bits 3:0 of the command word (rule R53). -/
def opField (w : Word) : Nibble := w.extractLsb' 0 4

/-- RSV, bits 31:4 of the command word (rule R53). -/
def rsvField (w : Word) : BitVec 28 := w.extractLsb' 4 28

/-- The operation codes of rule R55. -/
def decodeOp (op : Nibble) : Option Instr :=
  match op.toNat with
  | 0x1 => some .expandByte
  | 0x2 => some .expandBytes
  | 0x3 => some .packBits
  | 0x4 => some .decodeFloatAbcd
  | 0x5 => some .decodeFloatDcba
  | 0x6 => some .encodeFloatAbcd
  | 0x7 => some .encodeFloatDcba
  | 0x8 => some .bswap32
  | 0x9 => some .nibbleToHex
  | 0xA => some .byteToHex
  | 0xB => some .hexToByte
  | _ => none

/-- The decoder of rule R58: total, every word is one of the eleven commands or illegal (rule R59). -/
def decode (w : Word) : Except IllegalWord Instr :=
  if rsvField w ≠ 0#28 then .error .reservedBitsSet
  else
    match decodeOp (opField w) with
    | some i => .ok i
    | none => .error .opcodeUnassigned

/-- The operation code of a command (rule R55). -/
def opcode (i : Instr) : Nibble :=
  match i with
  | .expandByte => 0x1#4
  | .expandBytes => 0x2#4
  | .packBits => 0x3#4
  | .decodeFloatAbcd => 0x4#4
  | .decodeFloatDcba => 0x5#4
  | .encodeFloatAbcd => 0x6#4
  | .encodeFloatDcba => 0x7#4
  | .bswap32 => 0x8#4
  | .nibbleToHex => 0x9#4
  | .byteToHex => 0xA#4
  | .hexToByte => 0xB#4

/-- The command word of a command: RSV zero above OP (rule R53; rule R63 writes `zext_32(OP)` to CMD). -/
def encode (i : Instr) : Word := 0#28 ++ opcode i

/-- The decoder on a word numbered as spec/opcode_table.json numbers it. A command word is one 32-bit register value,
so its bit 0 is the table's bit 0; a number that needs more than `nbits` bits, or more than 32, is no command word. -/
def decodeTableWord (nbits w : Nat) : Option Instr :=
  if nbits ≤ 32 ∧ w < 2 ^ nbits then
    match decode (BitVec.ofNat 32 w) with
    | .ok i => some i
    | .error _ => none
  else none

end Sys2Proof
end

