-- ==== Sys2Proof/Config.lean ====
section
/-! DEFINITION. What an implementation fixes (rule R6: BUF_SIZE and LATENCY are OPEN) and the free values: what the
spec leaves open and the machine goes on with. A free value has no body, so no proof can know it. -/

namespace Sys2Proof

/-- The OPEN parameters of rule R6. `Machine.State` carries one such record and no step changes it, so that a
statement about every state is a statement about every configuration (log 1, DESIGN CHOICE). -/
structure Config where
  /-- BUF_SIZE, the byte size of the buffer memory (rules R6, R33). -/
  bufSize : Nat
  /-- LATENCY, cycles from acceptance to completion (rules R6, R120). No rule depends on it and nothing reads it: the
  model is untimed (log 2). -/
  latency : Nat
deriving DecidableEq, Repr

/-- The bounds of rule R6: BUF_SIZE in [2, 2^32 - 1], LATENCY at least 1. -/
abbrev Config.legal (c : Config) : Prop := 2 ≤ c.bufSize ∧ c.bufSize ≤ 2 ^ 32 - 1 ∧ 1 ≤ c.latency

/-- The configuration of the spec's own vectors and programs: BUF_SIZE = 64 (95_test_vectors.md, conventions).
DESIGN CHOICE, unsafe (logs 1, 2): `Machine.State.reset` needs one value of two OPEN parameters. -/
def Config.vectors : Config := { bufSize := 64, latency := 1 }

/-- The value a read of a BUF byte that nothing has written returns, one for each draw (rule R109; 93 U10 "drawn afresh
at each read"), and the byte a host BUF write carries when its value needs more than 8 bits. Free value (logs 3, 10). -/
opaque Config.freeByte : Nat → BitVec 8

/-- The 32 bits a register access carries when a host script gives it a value that needs more, one for each draw. The spec
states no result there (rule R62 gives a script unbounded integers, rule R52 a RegWrite 32 bits). Free value (log 10). -/
opaque Config.freeWord : Nat → BitVec 32

/-- Whether a byte of an interrupted command's write set took its new value, one for each draw (rule R108 "chosen
independently for each byte"). Free value (log 5). -/
opaque Config.freeChoice : Nat → Bool

/-- What a host variable that the script has not yet bound holds. The spec does not say. Free value (log 6). -/
opaque Config.hostVarInitial : Nat → Nat

end Sys2Proof
end

