-- ==== Sys2Proof/Machine/State.lean ====
section
/-! DEFINITION. The state as plain data: the block's registers, latches and STATUS fields (rule R32), BUF, the
configuration, the host agent, the interleaving still to come and the draw counter; and the state right after reset
(rule R31). -/

namespace Sys2Proof.Machine

/-- BUF (rule R33) as the list of the bytes something has written, address and value, in one canonical form: addresses
strictly rising. A byte not listed has never been written; it has no fixed value (rule R109), so no entry can equal what
an unlisted address reads as. -/
abbrev Memory := List Host.Cell

/-- The canonical form: addresses strictly rising. -/
abbrev Memory.wf (m : Memory) : Prop := m.Pairwise (fun x y => x.1 < y.1)

/-- Every listed address exists in a BUF of `size` bytes (rule R33). -/
abbrev Memory.within (size : Nat) (m : Memory) : Prop := ∀ c ∈ m, c.1 < size

/-- The host-protocol faults (rules R32, R118). The host line that breaks the protocol raises the mark
`State.hostFault`; from then on `step` answers the fault. Both are safe: the model stops where the hardware goes on. -/
inductive Fault where
  /-- HOST_BUF_HAZARD: a host BUF access while STATUS.BUSY = 1 (rules R47, R118). Raised by the BW and BR lines. Safe. -/
  | hostBufHazard
  /-- A host BUF access at an address that does not exist, at or above BUF_SIZE (rule R33; log 9). Raised by the BW and
  BR lines. Safe. -/
  | hostBufAddress
deriving DecidableEq, Repr

/-- What the model gives no meaning. All are safe: the model stops. -/
inductive Refusal where
  /-- An instruction `exec` has no meaning for yet. Raised by `exec` alone; no arm of this model does. Safe. -/
  | notModelled (mnemonic : String)
  /-- HOST_ACCESS_UNSUPPORTED: a host register access at an undecoded offset or width (rules R39, R52, R118). Raised by
  the WR and RD lines. Safe. -/
  | hostAccessUnsupported
  /-- A jump to a label the script does not have: no host script of rule R62 (log 11). Raised by the GOTO and IF lines.
  Safe. -/
  | scriptLabelUnknown
deriving DecidableEq, Repr

/-- The result codes of rule R93. Codes 7..15 are never produced and no state can hold them (rule R23; 93 U14). -/
inductive ResultCode where
  | ok | errIllegal | errRange | errCount | errAddr | errOverlap | errHexChar
deriving DecidableEq, Repr

/-- Whose turn it is: the two agents and the external event of rule R17. -/
inductive Turn where
  | unit | host | reset
deriving DecidableEq, Repr

/-- A value the host has read (rule R62: "the value noted in the script's trace"): a register at an offset, or a BUF
byte at an address. -/
inductive Seen where
  | reg (off : Nat) (v : Word)
  | buf (addr : Nat) (v : Byte)
deriving DecidableEq, Repr

/-- The host (rules R17, R62): its script, the index of its next line, its variables (number and value, numbers
strictly rising), and what it has read, oldest first. -/
structure HostAgent where
  script : List Line
  pc : Nat
  vars : List (Nat × Nat)
  trace : List Seen
deriving DecidableEq, Repr

/-- The whole machine. The block's own state is what rule R32 lists, `opA` to `ovr`. -/
structure State where
  /-- The OPEN parameters (rule R6); configuration, changed by no step. -/
  config : Config
  /-- OPA..OPD (rule R19). -/
  opA : Word
  opB : Word
  opC : Word
  opD : Word
  /-- CMDL, the last accepted command word (rules R21, R26). -/
  cmdl : Word
  /-- OPL_A..OPL_D, the operands latched at acceptance (rule R26). -/
  oplA : Word
  oplB : Word
  oplC : Word
  oplD : Word
  /-- RES0 and RES1 (rule R22). -/
  res0 : Word
  res1 : Word
  /-- STATUS.CODE (rules R23, R93). -/
  code : ResultCode
  /-- STATUS.BUSY (rule R23). -/
  busy : Bool
  /-- STATUS.DONE (rule R23). -/
  done : Bool
  /-- STATUS.OVR (rules R23, R24). -/
  ovr : Bool
  /-- BUF (rule R33). -/
  buf : Memory
  /-- The model's fault mark (rules R32, R118); no step clears it. -/
  hostFault : Option Fault
  /-- The host agent. -/
  host : HostAgent
  /-- The turns to come, next first: one interleaving of rule R46 (log 4). -/
  schedule : List Turn
  /-- How many free values have been drawn (logs 3, 5, 10). -/
  freeCount : Nat
deriving DecidableEq, Repr

/-- A host with nothing to do. -/
def HostAgent.idle : HostAgent := { script := [], pc := 0, vars := [], trace := [] }

/-- The machine right after reset, with nothing in BUF written and no host script placed (rules R31, R109, R110). The
block's fields are the values of rule R31; `config` is DESIGN CHOICE (logs 1, 2), and `hostFault`, `host`, `schedule` and
`freeCount`, the model's own fields, are DESIGN CHOICE (logs 3, 4, 8, 12). -/
def State.reset : State :=
  { config := Config.vectors
    opA := 0#32, opB := 0#32, opC := 0#32, opD := 0#32
    cmdl := 0#32
    oplA := 0#32, oplB := 0#32, oplC := 0#32, oplD := 0#32
    res0 := 0#32, res1 := 0#32
    code := .ok, busy := false, done := false, ovr := false
    buf := []
    hostFault := none
    host := HostAgent.idle
    schedule := []
    freeCount := 0 }

end Sys2Proof.Machine
end

