-- ==== Sys2Proof/Machine/Operands.lean ====
section
/-! DEFINITION. The operand forms of rule R54 and the address arithmetic of rules R9, R36, R42: an operand is a 32-bit
unsigned value used as an address, an index, a count or a value of N bits; sums are unbounded and never wrap. -/

namespace Sys2Proof.Machine

/-- A value operand of width `n` is valid (rule R54: "valid only if operand < 2^N"). -/
def fitsWidth (n : Nat) (v : Word) : Bool := decide (v.toNat < 2 ^ n)

/-- An address plus an index, an unbounded sum (rules R9, R54). -/
def bufAddr (address index : Word) : Nat := address.toNat + index.toNat

/-- The number of bytes that hold `n` bits (rule R9). -/
def ceil8 (n : Nat) : Nat := (n + 7) / 8

/-- The byte range `[base, base + len)` lies inside a BUF of `size` bytes; a range of length 0 is never out of range
(rule R42). -/
def rangeInBuf (size base len : Nat) : Bool := len == 0 || decide (base + len ≤ size)

/-- Two non-empty byte ranges share a byte (rule R69's test; ranges that only touch do not overlap). -/
def rangesShareByte (base₁ len₁ base₂ len₂ : Nat) : Bool :=
  decide (base₁ < base₂ + len₂) && decide (base₂ < base₁ + len₁)

/-- The address is one of `[base, base + len)`. -/
def inRange (base len addr : Nat) : Bool := decide (base ≤ addr) && decide (addr < base + len)

/-- The BUF bytes a command reads when it succeeds, base and length, from the latched operands (rule R36). -/
def readRange (i : Instr) (s : State) : Nat × Nat :=
  match i with
  | .expandByte => (0, 0)
  | .expandBytes => (s.oplD.toNat, ceil8 s.oplC.toNat)
  | .packBits => (bufAddr s.oplA s.oplB, s.oplC.toNat)
  | .decodeFloatAbcd => (0, 0)
  | .decodeFloatDcba => (0, 0)
  | .encodeFloatAbcd => (0, 0)
  | .encodeFloatDcba => (0, 0)
  | .bswap32 => (0, 0)
  | .nibbleToHex => (0, 0)
  | .byteToHex => (0, 0)
  | .hexToByte => (bufAddr s.oplA s.oplB, 2)

/-- The BUF bytes a command writes when it succeeds, base and length, from the latched operands (rule R36). -/
def writeRange (i : Instr) (s : State) : Nat × Nat :=
  match i with
  | .expandByte => (bufAddr s.oplA s.oplB, 8)
  | .expandBytes => (bufAddr s.oplA s.oplB, s.oplC.toNat)
  | .packBits => (0, 0)
  | .decodeFloatAbcd => (0, 0)
  | .decodeFloatDcba => (0, 0)
  | .encodeFloatAbcd => (0, 0)
  | .encodeFloatDcba => (0, 0)
  | .bswap32 => (0, 0)
  | .nibbleToHex => (0, 0)
  | .byteToHex => (0, 0)
  | .hexToByte => (0, 0)

end Sys2Proof.Machine
end

