-- ==== Sys2Proof/Machine/Ops.lean ====
section
/-! DEFINITION. The named operations over BUF and the block's registers: reading and writing one byte (rules R11, R40,
R41), writing a result register (rule R22), accepting or dropping a command (rule R20), and completing one (rules R12,
R92). Completion is the block's only way to report an error: it has no trap, no vector and no return (rules R98, R99),
so `State.complete` stands where another machine takes an exception, and `State.accept`, which clears the code, where
another machine returns from one. -/

namespace Sys2Proof.Machine

/-- The value a sorted list of keyed values holds at a key, if it lists it. -/
def findKey {α : Type} (k : Nat) : List (Nat × α) → Option α
  | [] => none
  | (a, v) :: rest => if a = k then some v else findKey k rest

/-- A sorted list of keyed values with the value at one key set; the keys stay strictly rising. -/
def putKey {α : Type} (k : Nat) (v : α) : List (Nat × α) → List (Nat × α)
  | [] => [(k, v)]
  | (a, x) :: rest =>
    if k < a then (k, v) :: (a, x) :: rest
    else if k = a then (k, v) :: rest
    else (a, x) :: putKey k v rest

/-- The BUF byte at an address if something has written it, and none if nothing has (rule R109). -/
def Memory.read? (m : Memory) (addr : Nat) : Option Byte := findKey addr m

/-- BUF with one byte set; no other byte changes (rule R41). -/
def Memory.write (m : Memory) (addr : Nat) (v : Byte) : Memory := putKey addr v m

/-- `MemRead(addr, 1)` (rule R11): the byte and the state after the read. A byte that nothing has written reads as a
free value, a fresh one at each read (rule R109; 93 U10; log 3): the counter advances then, and nothing else changes. -/
def State.memRead (addr : Nat) (s : State) : Byte × State :=
  match s.buf.read? addr with
  | some v => (v, s)
  | none => (Config.freeByte s.freeCount, { s with freeCount := s.freeCount + 1 })

/-- `MemWrite(addr, 1, v)` (rule R11). -/
def State.memWrite (addr : Nat) (v : Byte) (s : State) : State := { s with buf := s.buf.write addr v }

/-- The 32 bits a host register write of `v` carries, and the state after it (rule R52). For a `v` that needs more bits the
spec states none, so they are a free value, a fresh draw (log 10). -/
def State.busWord (v : Nat) (s : State) : Word × State :=
  if v < 2 ^ 32 then (BitVec.ofNat 32 v, s)
  else (Config.freeWord s.freeCount, { s with freeCount := s.freeCount + 1 })

/-- The 8 bits a host BUF write of `v` carries, and the state after it (rules R33, R62), in the same form (log 10). -/
def State.busByte (v : Nat) (s : State) : Byte × State :=
  if v < 2 ^ 8 then (BitVec.ofNat 8 v, s)
  else (Config.freeByte s.freeCount, { s with freeCount := s.freeCount + 1 })

/-- `x[RES0] <- v` (rules R10, R22). -/
def State.setRes0 (v : Word) (s : State) : State := { s with res0 := v }

/-- `x[RES1] <- v` (rules R10, R22). -/
def State.setRes1 (v : Word) (s : State) : State := { s with res1 := v }

/-- Completion with a result code (rule R92): CODE, BUSY = 0, DONE = 1. STATUS.OVR, OPA..OPD, CMDL and the latches are
unchanged. `raise Error(c)` (rule R12) is this and nothing more. -/
def State.complete (c : ResultCode) (s : State) : State := { s with code := c, busy := false, done := true }

/-- Acceptance of the command word `w` (rule R20, BUSY = 0): CMDL and the operand latches are written, CODE and DONE are
cleared, BUSY is set. -/
def State.accept (w : Word) (s : State) : State :=
  { s with
    cmdl := w
    oplA := s.opA, oplB := s.opB, oplC := s.opC, oplD := s.opD
    code := .ok, busy := true, done := false }

/-- A CMD write while BUSY = 1 (rules R20, R114): dropped, and OVR is set. -/
def State.dropCommand (s : State) : State := { s with ovr := true }

/-- The host broke its protocol: the model's mark is set (rules R32, R118), and nothing else changes (log 8). -/
def State.markFault (f : Fault) (s : State) : State := { s with hostFault := some f }

/-- The state with its next turns given. -/
def State.withSchedule (turns : List Turn) (s : State) : State := { s with schedule := turns }

end Sys2Proof.Machine
end

