-- ==== Sys2Proof/Machine/BitCodec.lean ====
section
/-! DEFINITION. The bit_unpacker and the bit_packer (40_bit_codec.md): EXPAND_BYTE, EXPAND_BYTES, PACK_BITS, over the bit
mapping of rule R66. Each loop runs its iterations in order from 0. -/

namespace Sys2Proof.Machine

/-- An unpacked flag: exactly 0x00 or 0x01 (rule R67). -/
def flagByte (b : Bool) : Byte := if b then 0x01#8 else 0x00#8

/-- `for i in 0..n-1: MemWrite(base + i, 1, zext_8(v[i]))` (rule R68). -/
def expandByteLoop (base : Nat) (v : Word) : Nat → State → State
  | 0, s => s
  | n + 1, s => (expandByteLoop base v n s).memWrite (base + n) (flagByte (v.getLsbD n))

/-- EXPAND_BYTE, rule R68. -/
def execExpandByte (s : State) : Host.Outcome State Fault Refusal :=
  .next (
    if !fitsWidth 8 s.oplC then s.complete .errRange
    else if !rangeInBuf s.config.bufSize (bufAddr s.oplA s.oplB) 8 then s.complete .errAddr
    else (expandByteLoop (bufAddr s.oplA s.oplB) s.oplC 8 s).complete .ok)

/-- One iteration of rule R69's loop: bit `j mod 8` of the source byte `j div 8` goes to entry `j` (rule R66). -/
def expandBit (dbase src j : Nat) (s : State) : State :=
  let r := s.memRead (src + j / 8)
  r.2.memWrite (dbase + j) (flagByte (r.1.getLsbD (j % 8)))

/-- `for j in 0..n-1` of rule R69. -/
def expandBytesLoop (dbase src : Nat) : Nat → State → State
  | 0, s => s
  | n + 1, s => expandBit dbase src n (expandBytesLoop dbase src n s)

/-- EXPAND_BYTES, rule R69. A count of 0 checks and accesses nothing; the index B offsets only the destination. -/
def execExpandBytes (s : State) : Host.Outcome State Fault Refusal :=
  .next (
    let n := s.oplC.toNat
    let nb := ceil8 n
    let dbase := bufAddr s.oplA s.oplB
    let src := s.oplD.toNat
    if n = 0 then s.complete .ok
    else if !rangeInBuf s.config.bufSize dbase n || !rangeInBuf s.config.bufSize src nb then s.complete .errAddr
    else if rangesShareByte dbase n src nb then s.complete .errOverlap
    else (expandBytesLoop dbase src n s).complete .ok)

/-- Rule R70's loop: bit `i` of the byte is set exactly when entry `i` is non-zero (rule R67), for `i` in `0..n-1`. -/
def packBitsLoop (sbase : Nat) : Nat → State → Byte × State
  | 0, s => (0x00#8, s)
  | n + 1, s =>
    let r := packBitsLoop sbase n s
    let e := r.2.memRead (sbase + n)
    (if e.1 ≠ 0x00#8 then r.1 ||| (1#8 <<< n) else r.1, e.2)

/-- PACK_BITS, rule R70. A count above 8 fails and nothing is clamped; result bits at and above the count are 0. -/
def execPackBits (s : State) : Host.Outcome State Fault Refusal :=
  .next (
    let n := s.oplC.toNat
    let sbase := bufAddr s.oplA s.oplB
    if n > 8 then s.complete .errCount
    else if !rangeInBuf s.config.bufSize sbase n then s.complete .errAddr
    else
      let r := packBitsLoop sbase n s
      (r.2.setRes0 (r.1.setWidth 32)).complete .ok)

end Sys2Proof.Machine
end

