-- ==== Sys2Proof/Machine/ByteSwap.lean ====
section
/-! DEFINITION. The word_byte_swap_unit (42_byte_swap.md): the function bswap32 and the command BSWAP32. -/

namespace Sys2Proof.Machine

/-- `bswap32(v) = {v[7:0], v[15:8], v[23:16], v[31:24]}` (rule R81). -/
def byteReverse (v : Word) : Word :=
  v.extractLsb' 0 8 ++ v.extractLsb' 8 8 ++ v.extractLsb' 16 8 ++ v.extractLsb' 24 8

/-- BSWAP32, rule R83. -/
def execBswap32 (s : State) : Host.Outcome State Fault Refusal :=
  .next ((s.setRes0 (byteReverse s.oplA)).complete .ok)

end Sys2Proof.Machine
end

