-- ==== Sys2Proof/Machine/FloatCodec.lean ====
section
/-! DEFINITION. The float codec (41_float_codec.md): word pair to float and float to word pair, in the word orders ABCD
and DCBA of rule R74. Every command moves a bit pattern and reads no field of it (rules R15, R73). -/

namespace Sys2Proof.Machine

/-- A 16-bit word of a pattern, zero-extended into a result register (rules R56, R77). -/
def lowHalf (v : Word) : Word := (v.extractLsb' 0 16).setWidth 32

/-- The high 16-bit word of a pattern, zero-extended into a result register (rules R56, R77). -/
def highHalf (v : Word) : Word := (v.extractLsb' 16 16).setWidth 32

/-- `{w1[15:0], w0[15:0]}`: word 0 is the low half (rules R8, R74, R75). -/
def wordPair (w0 w1 : Word) : Word := w1.extractLsb' 0 16 ++ w0.extractLsb' 0 16

/-- DECODE_FLOAT_ABCD, rule R75. -/
def execDecodeFloatAbcd (s : State) : Host.Outcome State Fault Refusal :=
  .next (
    if !fitsWidth 16 s.oplA || !fitsWidth 16 s.oplB then s.complete .errRange
    else (s.setRes0 (wordPair s.oplA s.oplB)).complete .ok)

/-- DECODE_FLOAT_DCBA, rule R76. -/
def execDecodeFloatDcba (s : State) : Host.Outcome State Fault Refusal :=
  .next (
    if !fitsWidth 16 s.oplA || !fitsWidth 16 s.oplB then s.complete .errRange
    else (s.setRes0 (byteReverse (wordPair s.oplA s.oplB))).complete .ok)

/-- ENCODE_FLOAT_ABCD, rule R77. -/
def execEncodeFloatAbcd (s : State) : Host.Outcome State Fault Refusal :=
  .next (((s.setRes0 (lowHalf s.oplA)).setRes1 (highHalf s.oplA)).complete .ok)

/-- ENCODE_FLOAT_DCBA, rule R78. -/
def execEncodeFloatDcba (s : State) : Host.Outcome State Fault Refusal :=
  .next (((s.setRes0 (lowHalf (byteReverse s.oplA))).setRes1 (highHalf (byteReverse s.oplA))).complete .ok)

end Sys2Proof.Machine
end

