-- ==== Sys2Proof/Machine/HexCodec.lean ====
section
/-! DEFINITION. The hex codec (43_hex_codec.md): nibble and byte to hex characters, and the strict decoder of a hex pair
(rules R84-R90). The character codes are the spec's, which marks all but 0x39 as general knowledge (rule R14; log 13,
PRESUMED). -/

namespace Sys2Proof.Machine

/-- `hexchar`: a nibble's upper-case digit (rule R84). -/
def hexChar (n : Nibble) : Byte :=
  if n.toNat ≤ 9 then 0x30#8 + n.setWidth 8 else 0x41#8 + (n.setWidth 8 - 10#8)

/-- `ishex`: 0x30..0x39 or 0x41..0x46, and no other byte (rule R85). -/
def isHex (c : Byte) : Bool :=
  (decide (0x30 ≤ c.toNat) && decide (c.toNat ≤ 0x39)) || (decide (0x41 ≤ c.toNat) && decide (c.toNat ≤ 0x46))

/-- `hexval`: the nibble a valid character stands for (rule R86); used only where `isHex` holds. -/
def hexVal (c : Byte) : Nibble :=
  if c.toNat ≤ 0x39 then (c - 0x30#8).setWidth 4 else (c - 0x37#8).setWidth 4

/-- NIBBLE_TO_HEX, rule R88. -/
def execNibbleToHex (s : State) : Host.Outcome State Fault Refusal :=
  .next (
    if !fitsWidth 4 s.oplA then s.complete .errRange
    else (s.setRes0 ((hexChar (s.oplA.extractLsb' 0 4)).setWidth 32)).complete .ok)

/-- BYTE_TO_HEX, rule R89: the high nibble's character, then the low nibble's. -/
def execByteToHex (s : State) : Host.Outcome State Fault Refusal :=
  .next (
    if !fitsWidth 8 s.oplA then s.complete .errRange
    else
      ((s.setRes0 ((hexChar (s.oplA.extractLsb' 4 4)).setWidth 32)).setRes1
        ((hexChar (s.oplA.extractLsb' 0 4)).setWidth 32)).complete .ok)

/-- HEX_TO_BYTE, rule R90: strict (rule R87); RES1 is the position plus 2, not the address plus 2. -/
def execHexToByte (s : State) : Host.Outcome State Fault Refusal :=
  .next (
    let a := bufAddr s.oplA s.oplB
    if !rangeInBuf s.config.bufSize a 2 then s.complete .errAddr
    else
      let c0 := s.memRead a
      let c1 := c0.2.memRead (a + 1)
      if !isHex c0.1 || !isHex c1.1 then c1.2.complete .errHexChar
      else
        ((c1.2.setRes0 ((hexVal c0.1 ++ hexVal c1.1).setWidth 32)).setRes1 (s.oplB + 2#32)).complete .ok)

end Sys2Proof.Machine
end

