-- ==== Sys2Proof/Machine/Dispatch.lean ====
section
/-! DEFINITION. One arm for each command: the command run with A..D = OPL_A..OPL_D, and completed (rule R92). -/

namespace Sys2Proof.Machine

def exec (i : Instr) (s : State) : Host.Outcome State Fault Refusal :=
  match i with
  | .expandByte => Sys2Proof.Machine.execExpandByte s
  | .expandBytes => Sys2Proof.Machine.execExpandBytes s
  | .packBits => Sys2Proof.Machine.execPackBits s
  | .decodeFloatAbcd => Sys2Proof.Machine.execDecodeFloatAbcd s
  | .decodeFloatDcba => Sys2Proof.Machine.execDecodeFloatDcba s
  | .encodeFloatAbcd => Sys2Proof.Machine.execEncodeFloatAbcd s
  | .encodeFloatDcba => Sys2Proof.Machine.execEncodeFloatDcba s
  | .bswap32 => Sys2Proof.Machine.execBswap32 s
  | .nibbleToHex => Sys2Proof.Machine.execNibbleToHex s
  | .byteToHex => Sys2Proof.Machine.execByteToHex s
  | .hexToByte => Sys2Proof.Machine.execHexToByte s

end Sys2Proof.Machine
end

