-- ==== Sys2Proof/Machine/Flags.lean ====
section
/-! DEFINITION. STATUS, the block's only flags (rules R23, R24, R29): the code numbers of rule R93, the word a STATUS read
returns, and what a STATUS write does to OVR. -/

namespace Sys2Proof.Machine

/-- The number STATUS.CODE holds for each result (rule R93). -/
def ResultCode.number (c : ResultCode) : BitVec 4 :=
  match c with
  | .ok => 0#4
  | .errIllegal => 1#4
  | .errRange => 2#4
  | .errCount => 3#4
  | .errAddr => 4#4
  | .errOverlap => 5#4
  | .errHexChar => 6#4

/-- The word a read of STATUS returns: bits 31:7 read 0, then OVR, DONE, BUSY and CODE (rule R23). -/
def statusWord (s : State) : Word :=
  0#25 ++ BitVec.ofBool s.ovr ++ BitVec.ofBool s.done ++ BitVec.ofBool s.busy ++ s.code.number

/-- OVR after a host write of `w` to STATUS: cleared if bit 6 of `w` is 1, otherwise unchanged (rule R24). -/
def ovrAfterWrite (w : Word) (ovr : Bool) : Bool := if w.getLsbD 6 then false else ovr

end Sys2Proof.Machine
end

