-- ==== Sys2Proof/Machine/Bus.lean ====
section
/-! DEFINITION. The host's register accesses, RegRead and RegWrite (rules R18-R24, R52). -/

namespace Sys2Proof.Machine

/-- The byte offset of a register from the block's base (rule R18). -/
def Reg.offset (r : Reg) : Nat :=
  match r with
  | .opa => 0x00
  | .opb => 0x04
  | .opc => 0x08
  | .opd => 0x0C
  | .cmd => 0x10
  | .res0 => 0x14
  | .res1 => 0x18
  | .status => 0x1C

/-- The register an access of `width` bits at offset `off` reaches; none if the block does not decode it (rule R52). -/
def decodeAccess (width off : Nat) : Option Reg :=
  if width = 32 then
    match off with
    | 0x00 => some .opa
    | 0x04 => some .opb
    | 0x08 => some .opc
    | 0x0C => some .opd
    | 0x10 => some .cmd
    | 0x14 => some .res0
    | 0x18 => some .res1
    | 0x1C => some .status
    | _ => none
  else none

/-- What a host read of a register returns; a read has no side effect (rules R19, R21, R22, R23, R41). -/
def regRead (r : Reg) (s : State) : Word :=
  match r with
  | .opa => s.opA
  | .opb => s.opB
  | .opc => s.opC
  | .opd => s.opD
  | .cmd => s.cmdl
  | .res0 => s.res0
  | .res1 => s.res1
  | .status => statusWord s

/-- A host write of `w` to CMD, a command request (rule R20): dropped while BUSY = 1, accepted otherwise, whatever `w`
is. -/
def writeCmd (w : Word) (s : State) : State := if s.busy then s.dropCommand else s.accept w

/-- A host write of `w` to STATUS (rule R24). -/
def writeStatus (w : Word) (s : State) : State := { s with ovr := ovrAfterWrite w s.ovr }

/-- The effect of a host write of `w` to a register (rules R19, R20, R22, R24, R41). -/
def regWrite (r : Reg) (w : Word) (s : State) : State :=
  match r with
  | .opa => { s with opA := w }
  | .opb => { s with opB := w }
  | .opc => { s with opC := w }
  | .opd => { s with opD := w }
  | .cmd => writeCmd w s
  | .res0 => s
  | .res1 => s
  | .status => writeStatus w s

end Sys2Proof.Machine
end

