-- ==== Sys2Proof/Machine/HostScript.lean ====
section
/-! DEFINITION. What a host-script line does (rules R47, R52, R62, R118). Variables and control flow are the host's, not
the block's (rule R62). -/

namespace Sys2Proof.Machine

/-- A truth value as a host number: 1 or 0 (log 7, PRESUMED; `IF` uses only whether it is 0). -/
def truth (b : Bool) : Nat := if b then 1 else 0

/-- A comparison of unbounded host integers (rule R62). -/
def Cmp.holds (op : Cmp) (a b : Nat) : Bool :=
  match op with
  | .eq => a == b
  | .ne => a != b
  | .lt => decide (a < b)
  | .le => decide (a ≤ b)
  | .gt => decide (b < a)
  | .ge => decide (b ≤ a)

/-- What a host variable holds; one the script has not bound holds a free value (log 6). -/
def varValue (vars : List (Nat × Nat)) (x : Nat) : Nat :=
  match findKey x vars with
  | some v => v
  | none => Config.hostVarInitial x

/-- The value of a host expression (rule R62). -/
def Expr.eval (vars : List (Nat × Nat)) : Expr → Nat
  | .lit n => n
  | .var x => varValue vars x
  | .add a b => a.eval vars + b.eval vars
  | .band a b => a.eval vars &&& b.eval vars
  | .cmp op a b => truth (op.holds (a.eval vars) (b.eval vars))

/-- The value of an expression in a state. -/
def State.evalHost (e : Expr) (s : State) : Nat := e.eval s.host.vars

/-- The host goes on to its next line. -/
def State.hostNext (s : State) : State := { s with host := { s.host with pc := s.host.pc + 1 } }

/-- The host notes a value it has read, in its trace (rule R62). -/
def State.hostNote (x : Seen) (s : State) : State := { s with host := { s.host with trace := s.host.trace ++ [x] } }

/-- A host variable is bound to a value (rule R62). -/
def State.hostBind (x v : Nat) (s : State) : State := { s with host := { s.host with vars := putKey x v s.host.vars } }

/-- `-> $x`: the value just read is bound to a variable, if the line names one (rule R62). -/
def State.hostBindInto (into : Option Nat) (v : Nat) (s : State) : State :=
  match into with
  | some x => s.hostBind x v
  | none => s

/-- The index of the line a label stands at, counting from `at_`; the first one if the script doubles it (log 11). -/
def findLabel (l : Nat) : List Line → Nat → Option Nat
  | [], _ => none
  | .label m :: rest, at_ => if m = l then some at_ else findLabel l rest (at_ + 1)
  | .regWrite _ _ _ :: rest, at_ => findLabel l rest (at_ + 1)
  | .regRead _ _ _ :: rest, at_ => findLabel l rest (at_ + 1)
  | .wait :: rest, at_ => findLabel l rest (at_ + 1)
  | .bufWrite _ _ :: rest, at_ => findLabel l rest (at_ + 1)
  | .bufRead _ _ :: rest, at_ => findLabel l rest (at_ + 1)
  | .assign _ _ :: rest, at_ => findLabel l rest (at_ + 1)
  | .branch _ _ :: rest, at_ => findLabel l rest (at_ + 1)
  | .goto _ :: rest, at_ => findLabel l rest (at_ + 1)

/-- RegWrite of a host value (rule R52). An undecoded access is refused (rule R118); what the access carries of a value of
more than 32 bits is a free value (log 10). -/
def runRegWrite (width off v : Nat) (s : State) : Host.Outcome State Fault Refusal :=
  match decodeAccess width off with
  | none => .refused .hostAccessUnsupported
  | some r =>
    let x := s.busWord v
    .next (regWrite r x.1 x.2).hostNext

/-- RegRead (rule R52): the value is noted, and bound if the line names a variable (rule R62). -/
def runRegRead (width off : Nat) (into : Option Nat) (s : State) : Host.Outcome State Fault Refusal :=
  match decodeAccess width off with
  | none => .refused .hostAccessUnsupported
  | some r =>
    .next (((s.hostNote (.reg off (regRead r s))).hostBindInto into (regRead r s).toNat).hostNext)

/-- One round of WAIT: a STATUS read, and the host goes on once BUSY = 0 (rule R62). -/
def runWait (s : State) : Host.Outcome State Fault Refusal :=
  let seen := s.hostNote (.reg Reg.status.offset (statusWord s))
  .next (if s.busy then seen else seen.hostNext)

/-- A host write of a BUF byte (rules R33, R62). While BUSY = 1 it is the hazard of rules R47 and R118; outside BUF it is
an access to an address that does not exist (log 9); what is written of a value of more than 8 bits is a free value
(log 10). -/
def runBufWrite (addr v : Nat) (s : State) : Host.Outcome State Fault Refusal :=
  if s.busy then .next (s.markFault .hostBufHazard)
  else if s.config.bufSize ≤ addr then .next (s.markFault .hostBufAddress)
  else
    let x := s.busByte v
    .next (x.2.memWrite addr x.1).hostNext

/-- A host read of a BUF byte (rules R33, R62), with the same hazard and the same bound. -/
def runBufRead (addr : Nat) (into : Option Nat) (s : State) : Host.Outcome State Fault Refusal :=
  if s.busy then .next (s.markFault .hostBufHazard)
  else if s.config.bufSize ≤ addr then .next (s.markFault .hostBufAddress)
  else
    let r := s.memRead addr
    .next (((r.2.hostNote (.buf addr r.1)).hostBindInto into r.1.toNat).hostNext)

/-- The host goes to a label (rule R62); a label the script does not have is refused (log 11). -/
def runGoto (l : Nat) (s : State) : Host.Outcome State Fault Refusal :=
  match findLabel l s.host.script 0 with
  | some k => .next { s with host := { s.host with pc := k } }
  | none => .refused .scriptLabelUnknown

/-- What one host-script line does (rule R62). -/
def runLine (l : Line) (s : State) : Host.Outcome State Fault Refusal :=
  match l with
  | .regWrite width off v => runRegWrite width off (s.evalHost v) s
  | .regRead width off into => runRegRead width off into s
  | .wait => runWait s
  | .bufWrite addr b => runBufWrite (s.evalHost addr) (s.evalHost b) s
  | .bufRead addr into => runBufRead (s.evalHost addr) into s
  | .assign x e => .next (s.hostBind x (s.evalHost e)).hostNext
  | .label _ => .next s.hostNext
  | .branch cond l => if s.evalHost cond = 0 then .next s.hostNext else runGoto l s
  | .goto l => runGoto l s

/-- The line the host would run next, if its script has not finished. -/
def State.hostLine? (s : State) : Option Line := s.host.script[s.host.pc]?

/-- A host turn: its next line, or nothing when its script has finished. -/
def hostTurn (s : State) : Host.Outcome State Fault Refusal :=
  match s.hostLine? with
  | some l => runLine l s
  | none => .next s

end Sys2Proof.Machine
end

