-- ==== Sys2Proof/Machine/Agents.lean ====
section
/-! DEFINITION. The two agents and the external event (rule R17): the unit's step (rule R92), the reset event (rules
R107-R109), and which of them the next step is (rules R46, R120). -/

namespace Sys2Proof.Machine

/-- The unit's step on a state with BUSY = 1 (rule R92): the latched command, or ERR_ILLEGAL for an illegal word. -/
def unitStep (s : State) : Host.Outcome State Fault Refusal :=
  match decode s.cmdl with
  | .ok i => exec i s
  | .error _ => .next (s.complete .errIllegal)

/-- A unit turn: the unit's step is enabled when BUSY = 1 (rule R92); otherwise the turn passes and nothing changes. -/
def unitTurn (s : State) : Host.Outcome State Fault Refusal := if s.busy then unitStep s else .next s

/-- A BUF in which each byte of `[base, base + n)` is the one of `new` or the one of `old`, chosen independently (rule
R108), with the number of choices drawn before and after. A byte `new` does not list is left as it was. -/
def tornBuf (new : Memory) (base : Nat) : Nat → Memory × Nat → Memory × Nat
  | 0, old => old
  | n + 1, old =>
    let r := tornBuf new base n old
    (if Config.freeChoice r.2 then
        match new.read? (base + n) with
        | some v => r.1.write (base + n) v
        | none => r.1
      else r.1,
      r.2 + 1)

/-- BUF and the draw counter after reset arrives (rules R108, R109): unchanged when no command is in flight, when the
latched word is illegal, or when the latched command would have failed; otherwise each byte of its write set is old or
new. -/
def bufAfterReset (s : State) : Memory × Nat :=
  if s.busy then
    match decode s.cmdl with
    | .ok i =>
      match exec i s with
      | .next t =>
        if t.code = .ok then tornBuf t.buf (writeRange i s).1 (writeRange i s).2 (s.buf, t.freeCount)
        else (s.buf, t.freeCount)
      | .fault _ => (s.buf, s.freeCount)
      | .refused _ => (s.buf, s.freeCount)
    | .error _ => (s.buf, s.freeCount)
  else (s.buf, s.freeCount)

/-- Every register, field and latch of the block at its value of rule R31. -/
def State.clearBlock (s : State) : State :=
  { s with
    opA := 0#32, opB := 0#32, opC := 0#32, opD := 0#32
    cmdl := 0#32
    oplA := 0#32, oplB := 0#32, oplC := 0#32, oplD := 0#32
    res0 := 0#32, res1 := 0#32
    code := .ok, busy := false, done := false, ovr := false }

/-- The reset event (rules R107-R109): one step, any command abandoned. The host, the schedule, the configuration and the
fault mark are outside the block (log 15). -/
def resetEvent (s : State) : State :=
  let r := bufAfterReset s
  { s.clearBlock with buf := r.1, freeCount := r.2 }

/-- One turn of the machine (rules R17, R46). -/
def takeTurn (t : Turn) (s : State) : Host.Outcome State Fault Refusal :=
  match t with
  | .unit => unitTurn s
  | .host => hostTurn s
  | .reset => .next (resetEvent s)

/-- Whose turn it is and the state with that turn taken off the schedule. When the schedule is used up, a unit with
BUSY = 1 goes first, which is the weak fairness of rule R120 (log 4). -/
def nextTurn (s : State) : Turn × State :=
  match s.schedule with
  | t :: rest => (t, s.withSchedule rest)
  | [] => (if s.busy then .unit else .host, s)

/-- One step: a marked host-protocol fault stops the model (rules R32, R118; log 8); otherwise the next turn. -/
def agentStep (s : State) : Host.Outcome State Fault Refusal :=
  match s.hostFault with
  | some f => .fault f
  | none => takeTurn (nextTurn s).1 (nextTurn s).2

/-- The state with the command word `w` placed where the unit fetches its command, CMDL with BUSY = 1 (rules R20, R92),
a unit turn next and no fault mark (log 12). The operand latches stay as they are. -/
def State.placeCommand (w : Word) (s : State) : State :=
  { s with
    cmdl := w
    code := .ok, busy := true, done := false
    hostFault := none
    schedule := .unit :: s.schedule }

end Sys2Proof.Machine
end

