-- ==== Sys2Proof/Machine/Step.lean ====
section
/-! DEFINITION. The step function, and where the host of this package places an instruction for the next step. -/

namespace Sys2Proof.Machine

/-- One step of the machine: one event of the interleaving (rule R46). -/
def step (s : State) : Host.Outcome State Fault Refusal := agentStep s

/-- `s` with the command word of `nbits` bits and value `w` as the command the very next step runs. -/
def State.withFetchWord (s : State) (nbits w : Nat) : State := s.placeCommand (BitVec.ofNat 32 (w % 2 ^ nbits))

end Sys2Proof.Machine
end

