-- ==== Sys2Proof/Machine/Assembler.lean ====
section
/-! DEFINITION. Accesses by register name, and the pseudo-instructions (rules R61, R62, R63): their mnemonics, their
operands in order, their expansion into host-script lines, and the literals of the command syntax. -/

namespace Sys2Proof.Machine

/-- `WR reg, v` (rule R62). -/
def Line.wr (r : Reg) (v : Expr) : Line := .regWrite 32 r.offset v

/-- `RD reg` (rule R62). -/
def Line.rd (r : Reg) : Line := .regRead 32 r.offset none

/-- `RD reg -> $x` (rule R62). -/
def Line.rdInto (r : Reg) (x : Nat) : Line := .regRead 32 r.offset (some x)

/-- The command a pseudo-instruction starts (rule R61). -/
def Pseudo.instr (p : Pseudo) : Instr :=
  match p with
  | .expandByteToBits _ _ _ => .expandByte
  | .expandBytesToBits _ _ _ _ => .expandBytes
  | .packBitsToByte _ _ _ => .packBits
  | .decodeFloatBe _ _ => .decodeFloatAbcd
  | .decodeFloatSwapped _ _ => .decodeFloatDcba
  | .encodeFloatBe _ => .encodeFloatAbcd
  | .encodeFloatSwapped _ => .encodeFloatDcba
  | .bswap32 _ => .bswap32
  | .nibbleToHexChar _ => .nibbleToHex
  | .byteToHexPair _ => .byteToHex
  | .hexPairToByte _ _ => .hexToByte

/-- The operands a pseudo-instruction names, in order A, B, C, D (rules R61, R63). -/
def Pseudo.operands (p : Pseudo) : List Expr :=
  match p with
  | .expandByteToBits dst idx value => [dst, idx, value]
  | .expandBytesToBits dst idx count src => [dst, idx, count, src]
  | .packBitsToByte src idx count => [src, idx, count]
  | .decodeFloatBe w0 w1 => [w0, w1]
  | .decodeFloatSwapped w0 w1 => [w0, w1]
  | .encodeFloatBe f => [f]
  | .encodeFloatSwapped f => [f]
  | .bswap32 v => [v]
  | .nibbleToHexChar n => [n]
  | .byteToHexPair b => [b]
  | .hexPairToByte buf pos => [buf, pos]

/-- One WR for each operand, to the operand registers in order (rule R63). -/
def writeOperands : List Reg → List Expr → List Line
  | r :: rs, e :: es => Line.wr r e :: writeOperands rs es
  | [], _ => []
  | _, [] => []

/-- The expansion of a pseudo-instruction: the named operands, then CMD, then WAIT (rule R63). -/
def Pseudo.expand (p : Pseudo) : List Line :=
  writeOperands [.opa, .opb, .opc, .opd] p.operands ++ [Line.wr .cmd (.lit (encode p.instr).toNat), .wait]

/-- The host-script lines of a source script: pseudo-instructions expanded in place (rule R63). -/
def assemble : List Source → List Line
  | [] => []
  | .line l :: rest => l :: assemble rest
  | .pseudo p :: rest => p.expand ++ assemble rest

/-- The mnemonic of a pseudo-instruction, the document's function name (rule R61). -/
def Pseudo.mnemonic (p : Pseudo) : String :=
  match p with
  | .expandByteToBits _ _ _ => "expand_byte_to_bits"
  | .expandBytesToBits _ _ _ _ => "expand_bytes_to_bits"
  | .packBitsToByte _ _ _ => "pack_bits_to_byte"
  | .decodeFloatBe _ _ => "decode_float_be"
  | .decodeFloatSwapped _ _ => "decode_float_swapped"
  | .encodeFloatBe _ => "encode_float_be"
  | .encodeFloatSwapped _ => "encode_float_swapped"
  | .bswap32 _ => "bswap32"
  | .nibbleToHexChar _ => "nibble_to_hex_char"
  | .byteToHexPair _ => "byte_to_hex_pair"
  | .hexPairToByte _ _ => "hex_pair_to_byte"

/-- The pseudo-instruction of a mnemonic with its operands in the document's order; none if the mnemonic or the number
of operands is not one of rule R61's. -/
def Pseudo.ofOperands (mnemonic : String) (ops : List Expr) : Option Pseudo :=
  match ops with
  | [a] =>
    if mnemonic = "encode_float_be" then some (.encodeFloatBe a)
    else if mnemonic = "encode_float_swapped" then some (.encodeFloatSwapped a)
    else if mnemonic = "bswap32" then some (.bswap32 a)
    else if mnemonic = "nibble_to_hex_char" then some (.nibbleToHexChar a)
    else if mnemonic = "byte_to_hex_pair" then some (.byteToHexPair a)
    else none
  | [a, b] =>
    if mnemonic = "decode_float_be" then some (.decodeFloatBe a b)
    else if mnemonic = "decode_float_swapped" then some (.decodeFloatSwapped a b)
    else if mnemonic = "hex_pair_to_byte" then some (.hexPairToByte a b)
    else none
  | [a, b, c] =>
    if mnemonic = "expand_byte_to_bits" then some (.expandByteToBits a b c)
    else if mnemonic = "pack_bits_to_byte" then some (.packBitsToByte a b c)
    else none
  | [a, b, c, d] => if mnemonic = "expand_bytes_to_bits" then some (.expandBytesToBits a b c d) else none
  | _ => none

/-- The value of a digit character in a base of at most 16; both cases of a hexadecimal digit are read (log 14). -/
def digitValue? (base : Nat) (c : Char) : Option Nat :=
  let n := c.toNat
  let v? :=
    if 0x30 ≤ n ∧ n ≤ 0x39 then some (n - 0x30)
    else if 0x41 ≤ n ∧ n ≤ 0x46 then some (n - 0x37)
    else if 0x61 ≤ n ∧ n ≤ 0x66 then some (n - 0x57)
    else none
  match v? with
  | some v => if v < base then some v else none
  | none => none

/-- The number a run of digits stands for, most significant first, after the digits already read. -/
def digitsValue? (base acc : Nat) : List Char → Option Nat
  | [] => some acc
  | c :: rest =>
    match digitValue? base c with
    | some d => digitsValue? base (acc * base + d) rest
    | none => none

/-- An operand literal: decimal, or hexadecimal after `0x`, that fits in 32 bits (rule R61). -/
def literalValue? (text : List Char) : Option Nat :=
  let v? :=
    match text with
    | [] => none
    | ['0', 'x'] => none
    | '0' :: 'x' :: digits => digitsValue? 16 0 digits
    | digits => digitsValue? 10 0 digits
  match v? with
  | some v => if v < 2 ^ 32 then some v else none
  | none => none

/-- The operand literals of a line, all of them or none. -/
def literals? : List (List Char) → Option (List Expr)
  | [] => some []
  | t :: rest =>
    match literalValue? t, literals? rest with
    | some v, some es => some (.lit v :: es)
    | _, _ => none

/-- A line of the command syntax given as its mnemonic and its operand literals in order (rule R61). -/
def Pseudo.ofSyntax (mnemonic : String) (operands : List (List Char)) : Option Pseudo :=
  match literals? operands with
  | some es => Pseudo.ofOperands mnemonic es
  | none => none

end Sys2Proof.Machine
end

