-- ==== Sys2Proof/Safety.lean ====
section
/-! DEFINITION. The words claims are stated in: the invariant of the machine (rules R6, R23, R25, R33), finished and
error-free runs (rule R118), the caller's capacity contract (rule R116), and what a command changes and leaves alone. -/

namespace Sys2Proof.Machine

/-- The block has accepted nothing since reset: what rule R31 leaves, but for the operand registers, which the host may
have written. -/
abbrev State.fresh (s : State) : Prop :=
  s.cmdl = 0#32 ∧ s.oplA = 0#32 ∧ s.oplB = 0#32 ∧ s.oplC = 0#32 ∧ s.oplD = 0#32 ∧
    s.res0 = 0#32 ∧ s.res1 = 0#32 ∧ s.code = .ok ∧ s.ovr = false

/-- What holds of every state the machine can be in: a legal configuration (rule R6), BUF in canonical form and inside
its size (rule R33), BUSY = 1 only with DONE = 0 and CODE = 0, and BUSY = 0 with DONE = 0 only before the first command
since reset (rule R25). -/
structure State.Inv (s : State) : Prop where
  legal : s.config.legal
  bufWf : s.buf.wf
  bufWithin : s.buf.within s.config.bufSize
  busyStatus : s.busy = true → s.done = false ∧ s.code = .ok
  idleFresh : s.busy = false → s.done = false → s.fresh

/-- A run has ended: the host's script has finished with BUSY = 0 and no fault is marked (rule R118 "never final"). -/
abbrev State.finished (s : State) : Prop := s.hostLine? = none ∧ s.busy = false ∧ s.hostFault = none

/-- `k` steps of the machine, stopping at the first fault or refusal: the host's `Host.Core.run`, written out for this
machine. -/
def runSteps : Nat → State → Host.Outcome State Fault Refusal
  | 0, s => .next s
  | k + 1, s =>
    match step s with
    | .next t => runSteps k t
    | .fault f => .fault f
    | .refused r => .refused r

/-- `k` steps from `s` meet no fault, no fault mark and no refusal (rules R118, R119). -/
def SafeRun (k : Nat) (s : State) : Prop :=
  ∀ j, j ≤ k → ∃ t, runSteps j s = .next t ∧ t.hostFault = none

/-- A step from `s` to `t` completes a command (rule R92). -/
abbrev CompletesAt (s t : State) : Prop := s.busy = true ∧ t.busy = false ∧ t.done = true

/-- Every completion in `k` steps from `s` had CODE = 0 (rule R118). -/
def ErrorFreeRun (k : Nat) (s : State) : Prop :=
  ∀ j t u, j < k → runSteps j s = .next t → step t = .next u → CompletesAt t u → u.code = .ok

/-- The capacity contract of rule R116 for a command in state `s`, against the buffers the caller owns: every byte the
command reads or writes belongs to one of them. `owned` lists each buffer's base and length. -/
def CapacityKept (owned : List (Nat × Nat)) (i : Instr) (s : State) : Prop :=
  ∀ a, (inRange (readRange i s).1 (readRange i s).2 a = true ∨ inRange (writeRange i s).1 (writeRange i s).2 a = true) →
    ∃ b ∈ owned, inRange b.1 b.2 a = true

/-- What no command changes, whatever its result (rules R12, R92): the configuration, OPA..OPD, CMDL and the latches,
STATUS.OVR; and what is not the block's: the fault mark, the host and the schedule. -/
structure CommandFrame (s t : State) : Prop where
  config : t.config = s.config
  opA : t.opA = s.opA
  opB : t.opB = s.opB
  opC : t.opC = s.opC
  opD : t.opD = s.opD
  cmdl : t.cmdl = s.cmdl
  oplA : t.oplA = s.oplA
  oplB : t.oplB = s.oplB
  oplC : t.oplC = s.oplC
  oplD : t.oplD = s.oplD
  ovr : t.ovr = s.ovr
  hostFault : t.hostFault = s.hostFault
  host : t.host = s.host
  schedule : t.schedule = s.schedule

/-- Every BUF byte reads as before: written with the same value, or not written. -/
abbrev SameBuf (s t : State) : Prop := ∀ a, t.buf.read? a = s.buf.read? a

/-- STATUS after a completion with code `c` (rule R92), and the frame every command keeps. -/
structure CompletesWith (c : ResultCode) (s t : State) : Prop where
  code : t.code = c
  busy : t.busy = false
  done : t.done = true
  frame : CommandFrame s t

/-- A command run in `s` fails with code `c` (rules R12, R92): it completes with the code, and no BUF byte and neither
result register is written. -/
def FailsWith (i : Instr) (c : ResultCode) (s : State) : Prop :=
  ∃ t, exec i s = .next t ∧ CompletesWith c s t ∧ SameBuf s t ∧ t.res0 = s.res0 ∧ t.res1 = s.res1

/-- The operands a command names, in order A, B, C, D (rules R56, R57). -/
def namedOperands (i : Instr) (s : State) : List Word :=
  match i with
  | .expandByte => [s.oplA, s.oplB, s.oplC]
  | .expandBytes => [s.oplA, s.oplB, s.oplC, s.oplD]
  | .packBits => [s.oplA, s.oplB, s.oplC]
  | .decodeFloatAbcd => [s.oplA, s.oplB]
  | .decodeFloatDcba => [s.oplA, s.oplB]
  | .encodeFloatAbcd => [s.oplA]
  | .encodeFloatDcba => [s.oplA]
  | .bswap32 => [s.oplA]
  | .nibbleToHex => [s.oplA]
  | .byteToHex => [s.oplA]
  | .hexToByte => [s.oplA, s.oplB]

/-- Whether a command names RES0 as an output (rule R56). -/
def namesRes0 (i : Instr) : Bool :=
  match i with
  | .expandByte => false
  | .expandBytes => false
  | .packBits => true
  | .decodeFloatAbcd => true
  | .decodeFloatDcba => true
  | .encodeFloatAbcd => true
  | .encodeFloatDcba => true
  | .bswap32 => true
  | .nibbleToHex => true
  | .byteToHex => true
  | .hexToByte => true

/-- Whether a command names RES1 as an output (rule R56). -/
def namesRes1 (i : Instr) : Bool :=
  match i with
  | .expandByte => false
  | .expandBytes => false
  | .packBits => false
  | .decodeFloatAbcd => false
  | .decodeFloatDcba => false
  | .encodeFloatAbcd => true
  | .encodeFloatDcba => true
  | .bswap32 => false
  | .nibbleToHex => false
  | .byteToHex => true
  | .hexToByte => true

/-- The errors each command can report (rule R96). -/
def reportableErrors (i : Instr) : List ResultCode :=
  match i with
  | .expandByte => [.errRange, .errAddr]
  | .expandBytes => [.errAddr, .errOverlap]
  | .packBits => [.errCount, .errAddr]
  | .decodeFloatAbcd => [.errRange]
  | .decodeFloatDcba => [.errRange]
  | .encodeFloatAbcd => []
  | .encodeFloatDcba => []
  | .bswap32 => []
  | .nibbleToHex => [.errRange]
  | .byteToHex => [.errRange]
  | .hexToByte => [.errAddr, .errHexChar]

/-- The misuse for which a host line is refused, if it is one: an access the block does not decode (rules R39, R52, R118),
or a jump taken to a label the script does not have (log 11). -/
def misuseRefusal (l : Line) (s : State) : Option Refusal :=
  match l with
  | .regWrite width off _ => if accessDecoded width off then none else some .hostAccessUnsupported
  | .regRead width off _ => if accessDecoded width off then none else some .hostAccessUnsupported
  | .wait => none
  | .bufWrite _ _ => none
  | .bufRead _ _ => none
  | .assign _ _ => none
  | .label _ => none
  | .branch cond m => if s.evalHost cond = 0 ∨ .label m ∈ s.host.script then none else some .scriptLabelUnknown
  | .goto m => if .label m ∈ s.host.script then none else some .scriptLabelUnknown

/-- The misuse a host BUF access at `addr` is, if it is one: BUSY = 1 (rules R47, R118), or outside BUF (rule R33; log
9). -/
def misuseOfBuf (addr : Expr) (s : State) : Option Fault :=
  if s.busy then some .hostBufHazard
  else if s.config.bufSize ≤ s.evalHost addr then some .hostBufAddress
  else none

/-- The host-protocol fault a host line raises, if it raises one: only BW and BR can. -/
def misuseFault (l : Line) (s : State) : Option Fault :=
  match l with
  | .regWrite _ _ _ => none
  | .regRead _ _ _ => none
  | .wait => none
  | .bufWrite addr _ => misuseOfBuf addr s
  | .bufRead addr _ => misuseOfBuf addr s
  | .assign _ _ => none
  | .label _ => none
  | .branch _ _ => none
  | .goto _ => none

/-- The host's turn is next and the model is not marked. -/
abbrev HostTurnNext (s : State) : Prop := s.hostFault = none ∧ (nextTurn s).1 = .host

/-- The unit's turn is next and the model is not marked. -/
abbrev UnitTurnNext (s : State) : Prop := s.hostFault = none ∧ (nextTurn s).1 = .unit

end Sys2Proof.Machine
end

