-- ==== Sys2Proof/Certificates/Slice0/Obligations.lean ====
section
/-! DEFINITION. The statements for the provers. Each docstring names the rule of spec/ it formalises, or says that it is
derived or the model's own choice. BUF is read through `Memory.read?`: the byte if something has written it, and none if
nothing has (log 3). No statement rests on a value of `freeCount` or of a free value. -/

open Sys2Proof Sys2Proof.Machine

/-- Rule R68, EXPAND_BYTE: encoding, both errors in their order, and the eight flag bytes. -/
def Obligations.ExpandByteWritesEightFlags : Prop :=
  decode 0x00000001#32 = .ok .expandByte ∧
  ∀ s : State,
    (2 ^ 8 ≤ s.oplC.toNat → FailsWith .expandByte .errRange s) ∧
    (s.oplC.toNat < 2 ^ 8 → s.config.bufSize < s.oplA.toNat + s.oplB.toNat + 8 →
      FailsWith .expandByte .errAddr s) ∧
    (s.oplC.toNat < 2 ^ 8 → s.oplA.toNat + s.oplB.toNat + 8 ≤ s.config.bufSize →
      ∃ t, exec .expandByte s = .next t ∧ CompletesWith .ok s t ∧ t.res0 = s.res0 ∧ t.res1 = s.res1 ∧
        (∀ i, i < 8 →
          t.buf.read? (s.oplA.toNat + s.oplB.toNat + i) = some (if s.oplC.getLsbD i then 0x01#8 else 0x00#8)) ∧
        ∀ a, ¬ (s.oplA.toNat + s.oplB.toNat ≤ a ∧ a < s.oplA.toNat + s.oplB.toNat + 8) →
          t.buf.read? a = s.buf.read? a)

/-- Rule R69, EXPAND_BYTES: encoding, the count of 0, both errors in their order (ERR_OVERLAP exactly when the two ranges
share a byte), and the flags. An entry whose source byte nothing has written is still 0x00 or 0x01. -/
def Obligations.ExpandBytesWritesFlags : Prop :=
  decode 0x00000002#32 = .ok .expandBytes ∧
  ∀ s : State,
    (s.oplC.toNat = 0 →
      ∃ t, exec .expandBytes s = .next t ∧ CompletesWith .ok s t ∧ SameBuf s t ∧ t.res0 = s.res0 ∧ t.res1 = s.res1) ∧
    (s.oplC.toNat ≠ 0 →
      (s.config.bufSize < s.oplA.toNat + s.oplB.toNat + s.oplC.toNat ∨
        s.config.bufSize < s.oplD.toNat + (s.oplC.toNat + 7) / 8) →
      FailsWith .expandBytes .errAddr s) ∧
    (s.oplC.toNat ≠ 0 → s.oplA.toNat + s.oplB.toNat + s.oplC.toNat ≤ s.config.bufSize →
      s.oplD.toNat + (s.oplC.toNat + 7) / 8 ≤ s.config.bufSize →
      (∃ a, (s.oplA.toNat + s.oplB.toNat ≤ a ∧ a < s.oplA.toNat + s.oplB.toNat + s.oplC.toNat) ∧
        (s.oplD.toNat ≤ a ∧ a < s.oplD.toNat + (s.oplC.toNat + 7) / 8)) →
      FailsWith .expandBytes .errOverlap s) ∧
    (s.oplC.toNat ≠ 0 → s.oplA.toNat + s.oplB.toNat + s.oplC.toNat ≤ s.config.bufSize →
      s.oplD.toNat + (s.oplC.toNat + 7) / 8 ≤ s.config.bufSize →
      (¬ ∃ a, (s.oplA.toNat + s.oplB.toNat ≤ a ∧ a < s.oplA.toNat + s.oplB.toNat + s.oplC.toNat) ∧
        (s.oplD.toNat ≤ a ∧ a < s.oplD.toNat + (s.oplC.toNat + 7) / 8)) →
      ∃ t, exec .expandBytes s = .next t ∧ CompletesWith .ok s t ∧ t.res0 = s.res0 ∧ t.res1 = s.res1 ∧
        (∀ j b, j < s.oplC.toNat → s.buf.read? (s.oplD.toNat + j / 8) = some b →
          t.buf.read? (s.oplA.toNat + s.oplB.toNat + j) = some (if b.getLsbD (j % 8) then 0x01#8 else 0x00#8)) ∧
        (∀ j, j < s.oplC.toNat →
          t.buf.read? (s.oplA.toNat + s.oplB.toNat + j) = some 0x00#8 ∨
            t.buf.read? (s.oplA.toNat + s.oplB.toNat + j) = some 0x01#8) ∧
        ∀ a, ¬ (s.oplA.toNat + s.oplB.toNat ≤ a ∧ a < s.oplA.toNat + s.oplB.toNat + s.oplC.toNat) →
          t.buf.read? a = s.buf.read? a)

/-- Rule R70, PACK_BITS: encoding, both errors in their order, and the packed byte, bit by bit. A count of 0 is the
success clause with no bit set. -/
def Obligations.PackBitsGathersEntries : Prop :=
  decode 0x00000003#32 = .ok .packBits ∧
  ∀ s : State,
    (8 < s.oplC.toNat → FailsWith .packBits .errCount s) ∧
    (s.oplC.toNat ≤ 8 → 0 < s.oplC.toNat → s.config.bufSize < s.oplA.toNat + s.oplB.toNat + s.oplC.toNat →
      FailsWith .packBits .errAddr s) ∧
    (s.oplC.toNat ≤ 8 → (s.oplC.toNat = 0 ∨ s.oplA.toNat + s.oplB.toNat + s.oplC.toNat ≤ s.config.bufSize) →
      ∃ t, exec .packBits s = .next t ∧ CompletesWith .ok s t ∧ SameBuf s t ∧ t.res1 = s.res1 ∧
        (∀ i e, i < s.oplC.toNat → s.buf.read? (s.oplA.toNat + s.oplB.toNat + i) = some e →
          t.res0.getLsbD i = decide (e ≠ 0x00#8)) ∧
        ∀ i, s.oplC.toNat ≤ i → t.res0.getLsbD i = false)

/-- Rule R75, DECODE_FLOAT_ABCD: encoding, the range error, and the pattern (B << 16) | A. -/
def Obligations.DecodeFloatAbcdAssembles : Prop :=
  decode 0x00000004#32 = .ok .decodeFloatAbcd ∧
  ∀ s : State,
    ((2 ^ 16 ≤ s.oplA.toNat ∨ 2 ^ 16 ≤ s.oplB.toNat) → FailsWith .decodeFloatAbcd .errRange s) ∧
    (s.oplA.toNat < 2 ^ 16 → s.oplB.toNat < 2 ^ 16 →
      ∃ t, exec .decodeFloatAbcd s = .next t ∧ CompletesWith .ok s t ∧ SameBuf s t ∧ t.res1 = s.res1 ∧
        t.res0.toNat = s.oplB.toNat * 2 ^ 16 + s.oplA.toNat)

/-- Rule R76, DECODE_FLOAT_DCBA: encoding, the range error, and the pattern {A[7:0], A[15:8], B[7:0], B[15:8]}. -/
def Obligations.DecodeFloatDcbaAssembles : Prop :=
  decode 0x00000005#32 = .ok .decodeFloatDcba ∧
  ∀ s : State,
    ((2 ^ 16 ≤ s.oplA.toNat ∨ 2 ^ 16 ≤ s.oplB.toNat) → FailsWith .decodeFloatDcba .errRange s) ∧
    (s.oplA.toNat < 2 ^ 16 → s.oplB.toNat < 2 ^ 16 →
      ∃ t, exec .decodeFloatDcba s = .next t ∧ CompletesWith .ok s t ∧ SameBuf s t ∧ t.res1 = s.res1 ∧
        t.res0.toNat = s.oplA.toNat % 2 ^ 8 * 2 ^ 24 + s.oplA.toNat / 2 ^ 8 * 2 ^ 16 +
          s.oplB.toNat % 2 ^ 8 * 2 ^ 8 + s.oplB.toNat / 2 ^ 8)

/-- Rule R77, ENCODE_FLOAT_ABCD: encoding, no error, the low half in RES0 and the high half in RES1. -/
def Obligations.EncodeFloatAbcdSplits : Prop :=
  decode 0x00000006#32 = .ok .encodeFloatAbcd ∧
  ∀ s : State,
    ∃ t, exec .encodeFloatAbcd s = .next t ∧ CompletesWith .ok s t ∧ SameBuf s t ∧
      t.res0.toNat = s.oplA.toNat % 2 ^ 16 ∧ t.res1.toNat = s.oplA.toNat / 2 ^ 16

/-- Rule R78, ENCODE_FLOAT_DCBA: encoding, no error, {A[23:16], A[31:24]} in RES0 and {A[7:0], A[15:8]} in RES1. -/
def Obligations.EncodeFloatDcbaSplits : Prop :=
  decode 0x00000007#32 = .ok .encodeFloatDcba ∧
  ∀ s : State,
    ∃ t, exec .encodeFloatDcba s = .next t ∧ CompletesWith .ok s t ∧ SameBuf s t ∧
      t.res0.toNat = s.oplA.toNat / 2 ^ 16 % 2 ^ 8 * 2 ^ 8 + s.oplA.toNat / 2 ^ 24 ∧
      t.res1.toNat = s.oplA.toNat % 2 ^ 8 * 2 ^ 8 + s.oplA.toNat / 2 ^ 8 % 2 ^ 8

/-- Rule R83 with the function of rule R81, BSWAP32: encoding, no error, the four bytes reversed. -/
def Obligations.Bswap32ReversesBytes : Prop :=
  decode 0x00000008#32 = .ok .bswap32 ∧
  ∀ s : State,
    ∃ t, exec .bswap32 s = .next t ∧ CompletesWith .ok s t ∧ SameBuf s t ∧ t.res1 = s.res1 ∧
      t.res0.toNat = s.oplA.toNat % 2 ^ 8 * 2 ^ 24 + s.oplA.toNat / 2 ^ 8 % 2 ^ 8 * 2 ^ 16 +
        s.oplA.toNat / 2 ^ 16 % 2 ^ 8 * 2 ^ 8 + s.oplA.toNat / 2 ^ 24

/-- Derived from rules R84 and R88, NIBBLE_TO_HEX: encoding, the range error, the digit's code. The codes 0x30 and 0x41
are rule R14's "from general knowledge, not in source" (log 13). -/
def Obligations.NibbleToHexGivesDigit : Prop :=
  decode 0x00000009#32 = .ok .nibbleToHex ∧
  ∀ s : State,
    (2 ^ 4 ≤ s.oplA.toNat → FailsWith .nibbleToHex .errRange s) ∧
    (s.oplA.toNat < 2 ^ 4 →
      ∃ t, exec .nibbleToHex s = .next t ∧ CompletesWith .ok s t ∧ SameBuf s t ∧ t.res1 = s.res1 ∧
        t.res0.toNat = if s.oplA.toNat ≤ 9 then 0x30 + s.oplA.toNat else 0x41 + (s.oplA.toNat - 10))

/-- Derived from rules R84 and R89, BYTE_TO_HEX: encoding, the range error, the high nibble's digit in RES0 and the low
nibble's in RES1. The codes 0x30 and 0x41 are rule R14's "from general knowledge, not in source" (log 13). -/
def Obligations.ByteToHexGivesPair : Prop :=
  decode 0x0000000A#32 = .ok .byteToHex ∧
  ∀ s : State,
    (2 ^ 8 ≤ s.oplA.toNat → FailsWith .byteToHex .errRange s) ∧
    (s.oplA.toNat < 2 ^ 8 →
      ∃ t, exec .byteToHex s = .next t ∧ CompletesWith .ok s t ∧ SameBuf s t ∧
        (t.res0.toNat =
          if s.oplA.toNat / 16 ≤ 9 then 0x30 + s.oplA.toNat / 16 else 0x41 + (s.oplA.toNat / 16 - 10)) ∧
        t.res1.toNat =
          if s.oplA.toNat % 16 ≤ 9 then 0x30 + s.oplA.toNat % 16 else 0x41 + (s.oplA.toNat % 16 - 10))

/-- Derived from rules R85, R86, R90, HEX_TO_BYTE: encoding, ERR_ADDR first, then ERR_HEXCHAR if either written character
is outside the alphabet, then the byte and position + 2. Where a character is not written, the command still completes,
with OK or ERR_HEXCHAR (log 3). The alphabet's edges but for 0x39 are rule R14's "from general knowledge, not in source"
(log 13). -/
def Obligations.HexToByteDecodesPair : Prop :=
  decode 0x0000000B#32 = .ok .hexToByte ∧
  ∀ s : State,
    (s.config.bufSize < s.oplA.toNat + s.oplB.toNat + 2 → FailsWith .hexToByte .errAddr s) ∧
    (∀ k c, k < 2 → s.oplA.toNat + s.oplB.toNat + 2 ≤ s.config.bufSize →
      s.buf.read? (s.oplA.toNat + s.oplB.toNat + k) = some c →
      ¬ ((0x30 ≤ c.toNat ∧ c.toNat ≤ 0x39) ∨ (0x41 ≤ c.toNat ∧ c.toNat ≤ 0x46)) →
      FailsWith .hexToByte .errHexChar s) ∧
    (∀ c0 c1 : Byte, ∀ v0 v1 : Nat, s.config.legal → s.oplA.toNat + s.oplB.toNat + 2 ≤ s.config.bufSize →
      s.buf.read? (s.oplA.toNat + s.oplB.toNat) = some c0 →
      s.buf.read? (s.oplA.toNat + s.oplB.toNat + 1) = some c1 →
      ((v0 ≤ 9 ∧ c0.toNat = 0x30 + v0) ∨ (10 ≤ v0 ∧ v0 ≤ 15 ∧ c0.toNat = 0x37 + v0)) →
      ((v1 ≤ 9 ∧ c1.toNat = 0x30 + v1) ∨ (10 ≤ v1 ∧ v1 ≤ 15 ∧ c1.toNat = 0x37 + v1)) →
      ∃ t, exec .hexToByte s = .next t ∧ CompletesWith .ok s t ∧ SameBuf s t ∧
        t.res0.toNat = 16 * v0 + v1 ∧ t.res1.toNat = s.oplB.toNat + 2) ∧
    (s.oplA.toNat + s.oplB.toNat + 2 ≤ s.config.bufSize →
      ∃ t, exec .hexToByte s = .next t ∧ SameBuf s t ∧
        (CompletesWith .ok s t ∨ (CompletesWith .errHexChar s t ∧ t.res0 = s.res0 ∧ t.res1 = s.res1)))

/-- Derived from rules R53, R55, R58: decoding and encoding agree both ways, for every command and every word. -/
def Obligations.DecodeEncodeAgree : Prop :=
  ∀ i : Instr, i.wellFormed = true → decode (encode i) = .ok i ∧ ∀ w : Word, decode w = .ok i → w = encode i

/-- Rule R59: exactly the words with a reserved bit set or an unassigned OP are illegal; such a word is accepted like any
other, and the unit's step then completes it with ERR_ILLEGAL and changes no BUF byte and no result register. -/
def Obligations.IllegalWordsCompleteWithErrIllegal : Prop :=
  ∀ w : Word,
    ((∀ i, decode w ≠ .ok i) ↔
      (w.toNat / 16 ≠ 0 ∨ w.toNat % 16 = 0x0 ∨ w.toNat % 16 = 0xC ∨ w.toNat % 16 = 0xD ∨ w.toNat % 16 = 0xE ∨
        w.toNat % 16 = 0xF)) ∧
    ((∀ i, decode w ≠ .ok i) → ∀ s : State, s.busy = false →
      (regWrite .cmd w s).busy = true ∧ (regWrite .cmd w s).cmdl = w ∧
      ∃ t, unitStep (regWrite .cmd w s) = .next t ∧ CompletesWith .errIllegal (regWrite .cmd w s) t ∧
        SameBuf s t ∧ t.res0 = s.res0 ∧ t.res1 = s.res1)

/-- A few words written out from the table of rule R55, and a few illegal ones (a sanity statement). -/
def Obligations.DecodeOfSpecWords : Prop :=
  decode 0x00000001#32 = .ok .expandByte ∧ decode 0x00000005#32 = .ok .decodeFloatDcba ∧
    decode 0x00000008#32 = .ok .bswap32 ∧ decode 0x0000000B#32 = .ok .hexToByte ∧
    decode 0x00000000#32 = .error .opcodeUnassigned ∧ decode 0x0000000C#32 = .error .opcodeUnassigned ∧
    decode 0x00000011#32 = .error .reservedBitsSet ∧ decode 0x80000003#32 = .error .reservedBitsSet

/-- Derived from rules R58, R92, with the model's own schedule (log 4): when the unit's turn is next, a step is `exec` of
the instruction CMDL decodes to, on the state with that turn taken off the schedule. -/
def Obligations.StepRunsDecodedCommand : Prop :=
  ∀ (s : State) (i : Instr), s.hostFault = none → s.busy = true → decode s.cmdl = .ok i → i.wellFormed = true →
    (s.schedule = [] → step s = exec i s) ∧
    ∀ rest, s.schedule = .unit :: rest → step s = exec i { s with schedule := rest }

/-- The model's own harness (log 12): a command placed with `withFetchWord` is the one the very next step runs. -/
def Obligations.PlacedCommandRunsNext : Prop :=
  ∀ (s : State) (i : Instr),
    step (s.withFetchWord 32 (encode i).toNat) =
      exec i { s with cmdl := encode i, code := .ok, busy := true, done := false, hostFault := none }

/-- Derived from rules R46 and R62, with the model's own schedule (log 4): a host turn runs the host's next line. That a
host turn of a finished script changes nothing is the model's choice (log 18). -/
def Obligations.StepRunsHostLine : Prop :=
  ∀ s : State, s.hostFault = none →
    (∀ l, s.hostLine? = some l →
      (s.schedule = [] → s.busy = false → step s = runLine l s) ∧
      ∀ rest, s.schedule = .host :: rest → step s = runLine l { s with schedule := rest }) ∧
    (s.hostLine? = none →
      (s.schedule = [] → s.busy = false → step s = .next s) ∧
      ∀ rest, s.schedule = .host :: rest → step s = .next { s with schedule := rest })

/-- The model's choice (log 18), on the model's own schedule (log 4), beside rules R92 ("enabled when STATUS.BUSY = 1") and
R106 ("idle and does nothing until a CMD write"): a unit turn while BUSY = 0 passes and changes nothing of the block. -/
def Obligations.UnitTurnPassesWhenIdle : Prop :=
  ∀ (s : State) (rest : List Turn), s.hostFault = none → s.busy = false → s.schedule = .unit :: rest →
    step s = .next { s with schedule := rest }

/-- Rule R20: a CMD write is dropped and sets OVR while BUSY = 1, and is accepted whatever the word is otherwise; an
illegal word then completes with ERR_ILLEGAL. CMD reads back the last accepted word. -/
def Obligations.CmdWriteAcceptsOrDrops : Prop :=
  ∀ (s : State) (w : Word),
    (s.busy = true →
      regWrite .cmd w s = { s with ovr := true } ∧ regRead .cmd (regWrite .cmd w s) = regRead .cmd s) ∧
    (s.busy = false →
      regWrite .cmd w s =
        { s with
          cmdl := w, oplA := s.opA, oplB := s.opB, oplC := s.opC, oplD := s.opD
          code := .ok, done := false, busy := true } ∧
      regRead .cmd (regWrite .cmd w s) = w ∧
      ((∀ i, decode w ≠ .ok i) →
        unitStep (regWrite .cmd w s) = .next ((regWrite .cmd w s).complete .errIllegal)))

/-- Rule R24: a STATUS write clears OVR if bit 6 of the word is 1, leaves it otherwise, and changes nothing else. -/
def Obligations.StatusWriteClearsOvrOnly : Prop :=
  ∀ (s : State) (w : Word),
    (w.toNat / 2 ^ 6 % 2 = 1 → regWrite .status w s = { s with ovr := false }) ∧
    (w.toNat / 2 ^ 6 % 2 = 0 → regWrite .status w s = s)

/-- Derived from rules R23 and R93: the number a STATUS read returns, field by field. -/
def Obligations.StatusReadFields : Prop :=
  ∀ s : State,
    (regRead .status s).toNat =
      (match s.code with
        | .ok => 0 | .errIllegal => 1 | .errRange => 2 | .errCount => 3 | .errAddr => 4 | .errOverlap => 5
        | .errHexChar => 6) +
      (if s.busy then 16 else 0) + (if s.done then 32 else 0) + (if s.ovr then 64 else 0)

/-- Derived from rules R19, R22, R34, R41, R115: writing an operand register sets it and nothing else, the latches
included; writing RES0 or RES1 is ignored; and each register reads its own value. -/
def Obligations.PlainRegisterWrites : Prop :=
  ∀ (s : State) (w : Word),
    regWrite .opa w s = { s with opA := w } ∧ regWrite .opb w s = { s with opB := w } ∧
    regWrite .opc w s = { s with opC := w } ∧ regWrite .opd w s = { s with opD := w } ∧
    regWrite .res0 w s = s ∧ regWrite .res1 w s = s ∧
    regRead .opa s = s.opA ∧ regRead .opb s = s.opB ∧ regRead .opc s = s.opC ∧ regRead .opd s = s.opD ∧
    regRead .cmd s = s.cmdl ∧ regRead .res0 s = s.res0 ∧ regRead .res1 s = s.res1

/-- Rule R52: a 32-bit access at 0x00, 0x04, ..., 0x1C reaches the register of rule R18 at that offset, and any other
offset or width is refused. The value written here is any expression whose value fits 32 bits (WideHostValuesRun has the
others, log 10). -/
def Obligations.RegisterAccessDecoding : Prop :=
  ∀ (s : State) (width off : Nat) (v : Expr) (into : Option Nat),
    (¬ (width = 32 ∧ off ∈ [0x00, 0x04, 0x08, 0x0C, 0x10, 0x14, 0x18, 0x1C]) →
      runLine (.regWrite width off v) s = .refused .hostAccessUnsupported ∧
      runLine (.regRead width off into) s = .refused .hostAccessUnsupported) ∧
    (∀ r : Reg,
      width = 32 →
      (off, r) ∈ [(0x00, Reg.opa), (0x04, .opb), (0x08, .opc), (0x0C, .opd), (0x10, .cmd), (0x14, .res0),
        (0x18, .res1), (0x1C, .status)] →
      (s.evalHost v < 2 ^ 32 →
        runLine (.regWrite width off v) s = .next (regWrite r (BitVec.ofNat 32 (s.evalHost v)) s).hostNext) ∧
      runLine (.regRead width off none) s = .next (s.hostNote (.reg off (regRead r s))).hostNext ∧
      ∀ x, runLine (.regRead width off (some x)) s =
        .next ((s.hostNote (.reg off (regRead r s))).hostBind x (regRead r s).toNat).hostNext)

/-- Derived from rules R47, R113, R118 (the mark and the stop after it are log 8): a host BUF access while BUSY = 1, when
the host's turn is next, raises the mark HOST_BUF_HAZARD and gives no value, and every step from then on is the fault. -/
def Obligations.HostBufAccessWhileBusyFaults : Prop :=
  ∀ (s : State) (addr b : Expr) (into : Option Nat), HostTurnNext s → s.busy = true →
    (s.hostLine? = some (.bufWrite addr b) ∨ s.hostLine? = some (.bufRead addr into)) →
    ∃ t, step s = .next t ∧ t = { s with hostFault := some .hostBufHazard, schedule := s.schedule.tail } ∧
      step t = .fault .hostBufHazard

/-- Derived from rules R33, R41, R46, R62, for BUSY = 0. Inside BUF: a host write of a value of 8 bits sets the byte and no
other and changes no register (a wider value is WideHostValuesRun's); a host read notes the value in the trace (log 16)
and binds it where the line names a variable, and changes no byte, whether the byte has been written or not (log 3). At
or above BUF_SIZE both raise the mark of log 9 and change nothing else. -/
def Obligations.HostBufAccessWhileIdle : Prop :=
  ∀ (s : State) (addr b : Expr), s.busy = false →
    (s.evalHost addr < s.config.bufSize →
      (s.evalHost b < 2 ^ 8 →
        ∃ t, runLine (.bufWrite addr b) s = .next t ∧
          t.buf.read? (s.evalHost addr) = some (BitVec.ofNat 8 (s.evalHost b)) ∧
          (∀ a, a ≠ s.evalHost addr → t.buf.read? a = s.buf.read? a) ∧
          t = { s with buf := t.buf, host := { s.host with pc := s.host.pc + 1 } }) ∧
      ∃ v n, (∀ w, s.buf.read? (s.evalHost addr) = some w → v = w ∧ n = s.freeCount) ∧
        runLine (.bufRead addr none) s =
          .next { s with
            freeCount := n
            host := { s.host with pc := s.host.pc + 1, trace := s.host.trace ++ [.buf (s.evalHost addr) v] } } ∧
        ∀ x, ∃ t, runLine (.bufRead addr (some x)) s = .next t ∧ varValue t.host.vars x = v.toNat ∧
          (∀ y, y ≠ x → varValue t.host.vars y = varValue s.host.vars y) ∧
          t = { s with
            freeCount := n
            host := { s.host with
              pc := s.host.pc + 1, vars := t.host.vars
              trace := s.host.trace ++ [.buf (s.evalHost addr) v] } }) ∧
    (s.config.bufSize ≤ s.evalHost addr →
      runLine (.bufWrite addr b) s = .next { s with hostFault := some .hostBufAddress } ∧
      ∀ into, runLine (.bufRead addr into) s = .next { s with hostFault := some .hostBufAddress })

/-- The model's reading of rule R109 and 93 U10 (log 3): a byte nothing has written reads as a free value, a fresh draw at
each read, and the read does not make it a written byte. Nothing in BUF is written at `State.reset`. -/
def Obligations.UnwrittenByteReadsFresh : Prop :=
  (∀ a, State.reset.buf.read? a = none) ∧
  ∀ (s : State) (a : Nat), s.buf.read? a = none →
    ∃ v t, s.memRead a = (v, t) ∧ v = Config.freeByte s.freeCount ∧ t.freeCount = s.freeCount + 1 ∧
      t.buf.read? a = none ∧ (t.memRead a).1 = Config.freeByte (s.freeCount + 1)

/-- Rule R31: the values after reset, of the machine's reset state and of the state any reset event leaves; BUF is
unchanged by a reset with no command in flight. -/
def Obligations.ResetValues : Prop :=
  (State.reset.fresh ∧ State.reset.opA = 0#32 ∧ State.reset.opB = 0#32 ∧ State.reset.opC = 0#32 ∧
    State.reset.opD = 0#32 ∧ State.reset.busy = false ∧ State.reset.done = false ∧
    regRead .status State.reset = 0#32) ∧
  ∀ s : State,
    (resetEvent s).fresh ∧ (resetEvent s).opA = 0#32 ∧ (resetEvent s).opB = 0#32 ∧ (resetEvent s).opC = 0#32 ∧
    (resetEvent s).opD = 0#32 ∧ (resetEvent s).busy = false ∧ (resetEvent s).done = false ∧
    regRead .status (resetEvent s) = 0#32 ∧ (s.busy = false → SameBuf s (resetEvent s))

/-- Derived from rules R31 and R107: reset can arrive at any time, in one step, and abandons any latched command: BUSY = 0
and DONE = 0 after it, and a unit turn that follows completes nothing. The turn taken off the schedule is the model's
(log 4), and so is what the reset leaves alone outside the block (log 15). -/
def Obligations.ResetAbandonsCommand : Prop :=
  ∀ (s : State) (rest : List Turn), s.hostFault = none → s.schedule = .reset :: rest →
    ∃ t, step s = .next t ∧ t.fresh ∧ t.opA = 0#32 ∧ t.opB = 0#32 ∧ t.opC = 0#32 ∧ t.opD = 0#32 ∧
      t.busy = false ∧ t.done = false ∧ t.host = s.host ∧ t.config = s.config ∧ t.schedule = rest ∧
      ∀ rest', rest = .unit :: rest' → step t = .next { t with schedule := rest' }

/-- Derived from rule R108, with the draws of log 5: a reset while BUSY = 1. If the command would have succeeded, each byte
of its write set (rule R36) is its new byte or its old one by a draw of its own, and every other byte is unchanged; if
it would have failed, or its word is illegal, no byte changes. RES0 and RES1 read 0. The draws start where the
command's own end and the counter ends past them, so that two resets share no draw. -/
def Obligations.ResetWhileBusyTearsWriteSet : Prop :=
  ∀ s : State, s.busy = true →
    (resetEvent s).res0 = 0#32 ∧ (resetEvent s).res1 = 0#32 ∧
    (∀ i t, decode s.cmdl = .ok i → exec i s = .next t →
      (t.code = .ok →
        (∀ k, k < (writeRange i s).2 →
          (resetEvent s).buf.read? ((writeRange i s).1 + k) =
            if Config.freeChoice (t.freeCount + k) then t.buf.read? ((writeRange i s).1 + k)
            else s.buf.read? ((writeRange i s).1 + k)) ∧
        (resetEvent s).freeCount = t.freeCount + (writeRange i s).2 ∧
        ∀ a, ¬ ((writeRange i s).1 ≤ a ∧ a < (writeRange i s).1 + (writeRange i s).2) →
          (resetEvent s).buf.read? a = s.buf.read? a) ∧
      (t.code ≠ .ok → SameBuf s (resetEvent s))) ∧
    ((∀ i, decode s.cmdl ≠ .ok i) → SameBuf s (resetEvent s))

/-- The invariant holds of the reset state (rules R6, R25, R31; the configuration is log 1). -/
def Obligations.InvariantAtReset : Prop := State.reset.Inv

/-- Derived from rules R6, R23, R25, R33, R42: every step keeps the invariant, whichever agent takes it. -/
def Obligations.StepKeepsInvariant : Prop := ∀ s t : State, s.Inv → step s = .next t → t.Inv

/-- Derived from rules R20, R25, R26, R92, R107: a step leaves CODE, BUSY, DONE, CMDL and the latches alone, or it accepts
a command, or it completes one, or it is a reset. The word accepted is the one written where it fits 32 bits (log 10). -/
def Obligations.OnlyAcceptanceCompletionResetWriteStatus : Prop :=
  ∀ s t : State, step s = .next t →
    (t.code = s.code ∧ t.busy = s.busy ∧ t.done = s.done ∧ t.cmdl = s.cmdl ∧ t.oplA = s.oplA ∧ t.oplB = s.oplB ∧
      t.oplC = s.oplC ∧ t.oplD = s.oplD) ∨
    (s.busy = false ∧ t.busy = true ∧ t.done = false ∧ t.code = .ok ∧ t.oplA = s.opA ∧ t.oplB = s.opB ∧
      t.oplC = s.opC ∧ t.oplD = s.opD ∧ (nextTurn s).1 = .host ∧
      ∃ v, s.hostLine? = some (.regWrite 32 0x10 v) ∧ (s.evalHost v < 2 ^ 32 → t.cmdl.toNat = s.evalHost v)) ∨
    (s.busy = true ∧ t.busy = false ∧ t.done = true ∧ t.cmdl = s.cmdl ∧ t.oplA = s.oplA ∧ t.oplB = s.oplB ∧
      t.oplC = s.oplC ∧ t.oplD = s.oplD ∧ (nextTurn s).1 = .unit) ∨
    (t.busy = false ∧ t.fresh ∧ t.done = false ∧ (nextTurn s).1 = .reset)

/-- Derived from rules R12, R40, R92: every command completes, in every state, in one step with BUSY = 0 and DONE = 1; it
keeps the frame of rule R92; and if its code is not OK it has written no BUF byte and no result register. -/
def Obligations.EveryCommandCompletesPrecisely : Prop :=
  ∀ (i : Instr) (s : State),
    ∃ t, exec i s = .next t ∧ CompletesWith t.code s t ∧
      (t.code ≠ .ok → SameBuf s t ∧ t.res0 = s.res0 ∧ t.res1 = s.res1)

/-- Derived from rules R22, R36, R42, R56, R67: a command changes no BUF byte outside its write range and no result
register it does not name; if it succeeds, the write range lies inside BUF and each byte of it is 0x00 or 0x01. -/
def Obligations.CommandsWriteOnlyTheirRange : Prop :=
  ∀ (i : Instr) (s t : State), exec i s = .next t →
    (∀ a, ¬ ((writeRange i s).1 ≤ a ∧ a < (writeRange i s).1 + (writeRange i s).2) →
      t.buf.read? a = s.buf.read? a) ∧
    (namesRes0 i = false → t.res0 = s.res0) ∧ (namesRes1 i = false → t.res1 = s.res1) ∧
    (t.code = .ok → ∀ a, (writeRange i s).1 ≤ a → a < (writeRange i s).1 + (writeRange i s).2 →
      a < s.config.bufSize ∧ (t.buf.read? a = some 0x00#8 ∨ t.buf.read? a = some 0x01#8))

/-- Derived from rules R29, R36, R57: a command's code, the results it names and the bytes it writes depend only on the
operands it names, BUF_SIZE and the bytes of its read range. Two states that agree on these (and stand at the same draw,
so that unwritten bytes read alike, log 3) give the same outcome whatever else differs. -/
def Obligations.OutcomeDependsOnNamedInputs : Prop :=
  ∀ (i : Instr) (s₁ s₂ : State),
    namedOperands i s₁ = namedOperands i s₂ → s₁.config.bufSize = s₂.config.bufSize → s₁.freeCount = s₂.freeCount →
    (∀ a, (readRange i s₁).1 ≤ a → a < (readRange i s₁).1 + (readRange i s₁).2 → s₁.buf.read? a = s₂.buf.read? a) →
    ∃ t₁ t₂, exec i s₁ = .next t₁ ∧ exec i s₂ = .next t₂ ∧ t₁.code = t₂.code ∧
      (t₁.code = .ok →
        (namesRes0 i = true → t₁.res0 = t₂.res0) ∧ (namesRes1 i = true → t₁.res1 = t₂.res1) ∧
        ∀ a, (writeRange i s₁).1 ≤ a → a < (writeRange i s₁).1 + (writeRange i s₁).2 →
          t₁.buf.read? a = t₂.buf.read? a)

/-- Derived from rules R26 and R115: a command uses the latches and never the live operand registers, so rewriting
OPA..OPD while it is in flight changes nothing but OPA..OPD. -/
def Obligations.LiveOperandsDoNotMatter : Prop :=
  ∀ (i : Instr) (s : State) (a b c d : Word),
    ∃ t, exec i s = .next t ∧
      exec i { s with opA := a, opB := b, opC := c, opD := d } = .next { t with opA := a, opB := b, opC := c, opD := d }

/-- Derived from rules R93 and R96: a command ends with OK or with one of the errors its row of rule R96 lists, and never
with ERR_ILLEGAL. -/
def Obligations.CommandsReportTheirErrors : Prop :=
  ∀ (i : Instr) (s t : State), exec i s = .next t →
    t.code ≠ .errIllegal ∧ (t.code = .ok ∨ t.code ∈ reportableErrors i)

/-- The law of rule R71, derived from rules R68 and R70: EXPAND_BYTE of `v`, then PACK_BITS of the 8 entries, gives back
`v`. The second command runs in any state with the first one's BUF. -/
def Obligations.ExpandThenPackReturnsByte : Prop :=
  ∀ (v base : Nat) (s₁ s₂ : State),
    v < 256 → base + 8 ≤ s₁.config.bufSize → s₁.oplA.toNat + s₁.oplB.toNat = base → s₁.oplC.toNat = v →
    ∃ t₁, exec .expandByte s₁ = .next t₁ ∧ t₁.code = .ok ∧
      (s₂.buf = t₁.buf → s₂.config = s₁.config → s₂.oplA.toNat + s₂.oplB.toNat = base → s₂.oplC.toNat = 8 →
        ∃ t₂, exec .packBits s₂ = .next t₂ ∧ t₂.code = .ok ∧ t₂.res0.toNat = v)

/-- The law of rule R72, derived from rules R69 and R70: EXPAND_BYTES of `n` bits that succeeds, then PACK_BITS of group
`k`, gives back the low bits of source byte `k`. The source bytes have been written, so that they have values (log 3). -/
def Obligations.ExpandBytesThenPackReturnsBytes : Prop :=
  ∀ (n k r : Nat) (src : Nat → Byte) (s₁ t₁ s₂ : State),
    1 ≤ n → s₁.oplC.toNat = n →
    (∀ j, j < (n + 7) / 8 → s₁.buf.read? (s₁.oplD.toNat + j) = some (src j)) →
    exec .expandBytes s₁ = .next t₁ → t₁.code = .ok →
    k < (n + 7) / 8 → r = min 8 (n - 8 * k) →
    s₂.buf = t₁.buf → s₂.config = s₁.config →
    s₂.oplA.toNat + s₂.oplB.toNat = s₁.oplA.toNat + s₁.oplB.toNat + 8 * k → s₂.oplC.toNat = r →
    ∃ t₂, exec .packBits s₂ = .next t₂ ∧ t₂.code = .ok ∧ t₂.res0.toNat = (src k).toNat % 2 ^ r

/-- The law of rule R79, derived from rules R75-R78: for every 32-bit pattern, ENCODE then DECODE of the same word order
returns it bit for bit. -/
def Obligations.EncodeThenDecodeReturnsPattern : Prop :=
  ∀ (s₁ s₂ : State),
    (∃ t₁, exec .encodeFloatAbcd s₁ = .next t₁ ∧ t₁.code = .ok ∧
      (s₂.oplA = t₁.res0 → s₂.oplB = t₁.res1 →
        ∃ t₂, exec .decodeFloatAbcd s₂ = .next t₂ ∧ t₂.code = .ok ∧ t₂.res0 = s₁.oplA)) ∧
    (∃ t₁, exec .encodeFloatDcba s₁ = .next t₁ ∧ t₁.code = .ok ∧
      (s₂.oplA = t₁.res0 → s₂.oplB = t₁.res1 →
        ∃ t₂, exec .decodeFloatDcba s₂ = .next t₂ ∧ t₂.code = .ok ∧ t₂.res0 = s₁.oplA))

/-- The law of rule R80, derived from rules R75 and R76: DECODE_FLOAT_DCBA of a word pair is the byte reversal of
DECODE_FLOAT_ABCD of it; the reversal is the one BSWAP32 performs. -/
def Obligations.DcbaIsByteReversedAbcd : Prop :=
  ∀ (s₁ s₂ s₃ : State),
    s₁.oplA.toNat < 2 ^ 16 → s₁.oplB.toNat < 2 ^ 16 → s₂.oplA = s₁.oplA → s₂.oplB = s₁.oplB →
    ∃ t₁ t₂ t₃, exec .decodeFloatDcba s₁ = .next t₁ ∧ exec .decodeFloatAbcd s₂ = .next t₂ ∧
      exec .bswap32 { s₃ with oplA := t₂.res0 } = .next t₃ ∧ t₁.code = .ok ∧ t₂.code = .ok ∧ t₁.res0 = t₃.res0

/-- The laws of rule R82, derived from rule R81: bswap32 is an involution, keeps 0 and 0xFFFFFFFF, and keeps the number of
set bits. -/
def Obligations.ByteReversalLaws : Prop :=
  (∀ v : Word, byteReverse (byteReverse v) = v) ∧
  byteReverse 0x00000000#32 = 0x00000000#32 ∧ byteReverse 0xFFFFFFFF#32 = 0xFFFFFFFF#32 ∧
  ∀ v : Word, (List.range 32).countP (fun i => (byteReverse v).getLsbD i) = (List.range 32).countP (fun i => v.getLsbD i)

/-- The law of rule R91, derived from rules R86, R89, R90: BYTE_TO_HEX of `b`, the host's two BUF writes, then HEX_TO_BYTE,
gives back `b` and the position plus 2. The legal configuration is rule R6's, which rule R90 uses to show that the
position plus 2 fits. -/
def Obligations.ByteToHexToByte : Prop :=
  ∀ (b p : Nat) (s₁ s₂ : State),
    b < 256 → s₁.oplA.toNat = b →
    ∃ t₁, exec .byteToHex s₁ = .next t₁ ∧ t₁.code = .ok ∧
      (s₂.config.legal → p + 2 ≤ s₂.config.bufSize →
        s₂.buf = (t₁.buf.write p (BitVec.ofNat 8 t₁.res0.toNat)).write (p + 1) (BitVec.ofNat 8 t₁.res1.toNat) →
        s₂.oplA.toNat + s₂.oplB.toNat = p →
        ∃ t₂, exec .hexToByte s₂ = .next t₂ ∧ t₂.code = .ok ∧ t₂.res0.toNat = b ∧
          t₂.res1.toNat = s₂.oplB.toNat + 2)

/-- Derived from rules R92 and R120 ("a unit with BUSY = 1 eventually takes its step"), with the model's schedule (log 4):
from any unmarked state with BUSY = 1, within one step more than the schedule is long, the command
has completed or been abandoned by a reset, or the host has broken its protocol and the run has stopped or is marked. -/
def Obligations.BusyUnitEventuallySteps : Prop :=
  ∀ s : State, s.hostFault = none → s.busy = true →
    ∃ k, k ≤ s.schedule.length + 1 ∧
      ((∃ t, runSteps k s = .next t ∧ (t.busy = false ∨ t.hostFault ≠ none)) ∨
        ∃ r, runSteps k s = .refused r)

/-- Derived from rules R57, R62, R63, R92: running the expansion of a pseudo-instruction with literal operands, in an idle
state whose turns are used up (the unit then steps as soon as it may, log 4), writes the operands it names, starts its
command, completes it as `exec` does, and reads STATUS once more, one WAIT step whose read is noted (log 16). `u` is the
state the command runs in, and differs from `s` only in the fields written here: operand registers that are not named
keep their values. -/
def Obligations.PseudoExpansionRunsCommand : Prop :=
  ∀ (s : State) (p : Pseudo) (ops : List Nat) (before after : List Line),
    s.hostFault = none → s.busy = false → s.schedule = [] →
    p.operands = ops.map Expr.lit → (∀ n ∈ ops, n < 2 ^ 32) →
    s.host.script = before ++ p.expand ++ after → s.host.pc = before.length →
    ∃ u t, exec p.instr u = .next t ∧
      u = { s with
        opA := (ops[0]?.map (BitVec.ofNat 32)).getD s.opA, opB := (ops[1]?.map (BitVec.ofNat 32)).getD s.opB
        opC := (ops[2]?.map (BitVec.ofNat 32)).getD s.opC, opD := (ops[3]?.map (BitVec.ofNat 32)).getD s.opD
        oplA := u.opA, oplB := u.opB, oplC := u.opC, oplD := u.opD
        cmdl := encode p.instr, code := .ok, busy := true, done := false
        host := { s.host with pc := before.length + ops.length + 1 } } ∧
      runSteps (ops.length + 3) s =
        .next { t with
          host := { s.host with
            pc := before.length + p.expand.length
            trace := s.host.trace ++ [.reg 0x1C (regRead .status t)] } }

/-- Derived from rule R62 (what a label, a jump and an assignment do is the host's own; a comparison's number is log 7):
one round of WAIT notes STATUS in the trace (log 16) and goes on only when BUSY = 0, a label line goes on, and the
control-flow lines move only the host. A jump goes to the first line that holds its label, and is refused when the
script has none; both are the model's choice (log 11). -/
def Obligations.HostControlLines : Prop :=
  ∀ s : State,
    (s.busy = true →
      runLine .wait s =
        .next { s with host := { s.host with trace := s.host.trace ++ [.reg 0x1C (regRead .status s)] } }) ∧
    (s.busy = false →
      runLine .wait s =
        .next { s with
          host := { s.host with pc := s.host.pc + 1, trace := s.host.trace ++ [.reg 0x1C (regRead .status s)] } }) ∧
    (∀ x e, ∃ t, runLine (.assign x e) s = .next t ∧ varValue t.host.vars x = s.evalHost e ∧
      (∀ y, y ≠ x → varValue t.host.vars y = varValue s.host.vars y) ∧
      t = { s with host := { s.host with pc := s.host.pc + 1, vars := t.host.vars } }) ∧
    (∀ l, runLine (.label l) s = .next { s with host := { s.host with pc := s.host.pc + 1 } }) ∧
    (∀ l before after, s.host.script = before ++ .label l :: after → .label l ∉ before →
      runLine (.goto l) s = .next { s with host := { s.host with pc := before.length } } ∧
      ∀ cond, s.evalHost cond ≠ 0 →
        runLine (.branch cond l) s = .next { s with host := { s.host with pc := before.length } }) ∧
    (∀ l, .label l ∉ s.host.script →
      runLine (.goto l) s = .refused .scriptLabelUnknown ∧
      ∀ cond, s.evalHost cond ≠ 0 → runLine (.branch cond l) s = .refused .scriptLabelUnknown) ∧
    ∀ cond l, s.evalHost cond = 0 →
      runLine (.branch cond l) s = .next { s with host := { s.host with pc := s.host.pc + 1 } }

/-- The model's memory (log 3): two BUFs in canonical form that read the same at every address are the same list, so that
equal memories are equal data. -/
def Obligations.CanonicalBufsAreEqual : Prop :=
  ∀ m₁ m₂ : Memory, m₁.wf → m₂.wf → (∀ a, m₁.read? a = m₂.read? a) → m₁ = m₂

/-- Derived from rules R39, R52, R92, R98, R118: a step faults exactly when a host-protocol fault is marked (log 8), a mark
appears exactly when the host runs a BW or BR while BUSY = 1 or outside BUF (log 9), and a step is refused exactly when
the host runs an access the block does not decode or a jump to a label the script does not have (log 11). No command of
the block ever stops the machine. `misuseFault` and `misuseRefusal` (Safety.lean) say which line is which misuse. -/
def Obligations.OnlyHostMisuseStops : Prop :=
  ∀ s : State,
    (∀ f, step s = .fault f ↔ s.hostFault = some f) ∧
    (∀ t f, step s = .next t →
      (t.hostFault = some f ↔ HostTurnNext s ∧ ∃ l, s.hostLine? = some l ∧ misuseFault l s = some f)) ∧
    ∀ r, step s = .refused r ↔ HostTurnNext s ∧ ∃ l, s.hostLine? = some l ∧ misuseRefusal l s = some r

/-- Derived from rules R20, R22, R23, R25, R112: accepting a command keeps RES0 and RES1; in an invariant state with
BUSY = 1, STATUS reads BUSY with CODE 0 and DONE 0; and a step that leaves BUSY at 1 keeps RES0 and RES1. So a read while
BUSY = 1 returns the results that stood before the command. -/
def Obligations.EarlyReadsAreDefined : Prop :=
  ∀ s : State, s.Inv →
    (s.busy = false → ∀ w,
      (regWrite .cmd w s).busy = true ∧ regRead .res0 (regWrite .cmd w s) = regRead .res0 s ∧
        regRead .res1 (regWrite .cmd w s) = regRead .res1 s ∧
        (regRead .status (regWrite .cmd w s)).toNat = (if s.ovr then 0x50 else 0x10)) ∧
    (s.busy = true →
      (regRead .status s).toNat = (if s.ovr then 0x50 else 0x10) ∧
      ∀ t, step s = .next t → t.busy = true →
        regRead .res0 t = regRead .res0 s ∧ regRead .res1 t = regRead .res1 s ∧
          (regRead .status t).toNat = (if t.ovr then 0x50 else 0x10))

/-- Derived from rules R45 and R116: the block does not see the caller's allocation, but a command that keeps the capacity
contract against the caller's buffers changes no BUF byte outside them. -/
def Obligations.CapacityContractConfinesWrites : Prop :=
  ∀ (owned : List (Nat × Nat)) (i : Instr) (s t : State), CapacityKept owned i s → exec i s = .next t →
    ∀ a, (∀ b ∈ owned, ¬ (b.1 ≤ a ∧ a < b.1 + b.2)) → t.buf.read? a = s.buf.read? a

/-- Derived from rule R43: no command that succeeds writes a byte of its read range, so its source reads as before. -/
def Obligations.NoCommandWritesItsSource : Prop :=
  ∀ (i : Instr) (s t : State), exec i s = .next t → t.code = .ok →
    ∀ a, (readRange i s).1 ≤ a → a < (readRange i s).1 + (readRange i s).2 →
      ¬ ((writeRange i s).1 ≤ a ∧ a < (writeRange i s).1 + (writeRange i s).2) ∧ t.buf.read? a = s.buf.read? a

/-- The model's choice (log 10): a host value that needs more bits than its access carries still makes the access, with
every effect of it, and the bits carried are a free value, a fresh draw. The accesses are a WR to a register of rule R18
and, with BUSY = 0 and the address inside BUF, a BW. -/
def Obligations.WideHostValuesRun : Prop :=
  ∀ (s : State) (e : Expr),
    (2 ^ 32 ≤ s.evalHost e → ∀ r : Reg, ∃ w, w = Config.freeWord s.freeCount ∧
      runLine (.regWrite 32 r.offset e) s =
        .next (regWrite r w { s with freeCount := s.freeCount + 1 }).hostNext) ∧
    (2 ^ 8 ≤ s.evalHost e → ∀ addr, s.busy = false → s.evalHost addr < s.config.bufSize →
      ∃ t, runLine (.bufWrite addr e) s = .next t ∧
        t.buf.read? (s.evalHost addr) = some (Config.freeByte s.freeCount) ∧
        (∀ a, a ≠ s.evalHost addr → t.buf.read? a = s.buf.read? a) ∧
        t = { s with
          buf := t.buf, freeCount := s.freeCount + 1, host := { s.host with pc := s.host.pc + 1 } })

/-- Derived from rules R19, R20, R22, R23, R24, R41, R92, R107: OPA..OPD change only by a host write of that register or a
reset; RES0 and RES1 only when a command that names them completes with OK, or by a reset; OVR is set only by a CMD
write while BUSY = 1 and cleared only by a STATUS write or a reset; the configuration never changes. What is written is
the line's value where it fits 32 bits (log 10). -/
def Obligations.OnlyNamedEventsWriteRegisters : Prop :=
  ∀ s t : State, step s = .next t →
    t.config = s.config ∧
    (∀ r old new, (r, old, new) ∈ [(Reg.opa, s.opA, t.opA), (.opb, s.opB, t.opB), (.opc, s.opC, t.opC),
        (.opd, s.opD, t.opD)] → new ≠ old →
      ((nextTurn s).1 = .reset ∧ new = 0#32) ∨
      ((nextTurn s).1 = .host ∧ ∃ e, s.hostLine? = some (.regWrite 32 r.offset e) ∧
        (s.evalHost e < 2 ^ 32 → new.toNat = s.evalHost e))) ∧
    (t.res0 ≠ s.res0 →
      ((nextTurn s).1 = .reset ∧ t.res0 = 0#32) ∨
      ((nextTurn s).1 = .unit ∧ s.busy = true ∧ t.code = .ok ∧ ∃ i, decode s.cmdl = .ok i ∧ namesRes0 i = true)) ∧
    (t.res1 ≠ s.res1 →
      ((nextTurn s).1 = .reset ∧ t.res1 = 0#32) ∨
      ((nextTurn s).1 = .unit ∧ s.busy = true ∧ t.code = .ok ∧ ∃ i, decode s.cmdl = .ok i ∧ namesRes1 i = true)) ∧
    (t.ovr = true → s.ovr = false →
      (nextTurn s).1 = .host ∧ s.busy = true ∧ ∃ e, s.hostLine? = some (.regWrite 32 0x10 e)) ∧
    (t.ovr = false → s.ovr = true →
      (nextTurn s).1 = .reset ∨
      ((nextTurn s).1 = .host ∧ ∃ e, s.hostLine? = some (.regWrite 32 0x1C e) ∧
        (s.evalHost e < 2 ^ 32 → s.evalHost e / 2 ^ 6 % 2 = 1)))

/-- Derived from rules R36, R41, R47, R92, R108: a BUF byte changes only by a host BW to it while BUSY = 0, inside BUF; by
the completion with OK of a command whose write range it is in; or by a reset that interrupts such a command. -/
def Obligations.OnlyNamedEventsWriteBuf : Prop :=
  ∀ (s t : State) (a : Nat), step s = .next t → t.buf.read? a ≠ s.buf.read? a →
    ((nextTurn s).1 = .host ∧ s.busy = false ∧ a < s.config.bufSize ∧
      ∃ addr e, s.hostLine? = some (.bufWrite addr e) ∧ s.evalHost addr = a) ∨
    (s.busy = true ∧ (∃ i, decode s.cmdl = .ok i ∧ (writeRange i s).1 ≤ a ∧ a < (writeRange i s).1 + (writeRange i s).2) ∧
      (((nextTurn s).1 = .unit ∧ t.code = .ok) ∨ (nextTurn s).1 = .reset))
end

