-- ==== Sys2Proof/Laws/Functions.lean ====
section
/-! SUPPORT. The pure functions of the codecs as arithmetic on numbers: what each gives, said once. -/

namespace Sys2Proof.Machine

/-- A concatenation as a sum (rule R8). -/
theorem toNat_append_eq {m n : Nat} (x : BitVec m) (y : BitVec n) : (x ++ y).toNat = x.toNat * 2 ^ n + y.toNat := by
  rw [BitVec.toNat_append, ← Nat.shiftLeft_add_eq_or_of_lt y.isLt, Nat.shiftLeft_eq]

/-- A slice of `len` bits from bit `start`, as a number (rule R8). -/
theorem toNat_slice {w : Nat} (v : BitVec w) (start len : Nat) :
    (v.extractLsb' start len).toNat = v.toNat / 2 ^ start % 2 ^ len := by
  simp [BitVec.extractLsb'_toNat, Nat.shiftRight_eq_div_pow]

/-- Rule R81 as arithmetic. -/
theorem byteReverse_toNat (v : Word) :
    (byteReverse v).toNat = v.toNat % 2 ^ 8 * 2 ^ 24 + v.toNat / 2 ^ 8 % 2 ^ 8 * 2 ^ 16 +
      v.toNat / 2 ^ 16 % 2 ^ 8 * 2 ^ 8 + v.toNat / 2 ^ 24 := by
  have h := v.isLt
  simp only [byteReverse, toNat_append_eq, toNat_slice]
  omega

/-- Rule R81 bit by bit. -/
theorem byteReverse_getLsbD (v : Word) {i : Nat} (hi : i < 32) :
    (byteReverse v).getLsbD i = v.getLsbD ((3 - i / 8) * 8 + i % 8) := by
  simp only [byteReverse, BitVec.getLsbD_append, BitVec.getLsbD_extractLsb']
  rcases (by omega : i / 8 = 0 ∨ i / 8 = 1 ∨ i / 8 = 2 ∨ i / 8 = 3) with h | h | h | h
  · have h1 : i < 8 := by omega
    have h2 : (3 - i / 8) * 8 + i % 8 = 24 + i := by omega
    simp [h1, h2]
  · have h1 : ¬ i < 8 := by omega
    have h3 : i - 8 < 8 := by omega
    have h2 : (3 - i / 8) * 8 + i % 8 = 16 + (i - 8) := by omega
    simp [h1, h2, h3]
  · have h1 : ¬ i < 8 := by omega
    have h3 : ¬ i - 8 < 8 := by omega
    have h4 : i - 8 - 8 < 8 := by omega
    have h2 : (3 - i / 8) * 8 + i % 8 = 8 + (i - 8 - 8) := by omega
    simp [h1, h2, h3, h4]
  · have h1 : ¬ i < 8 := by omega
    have h3 : ¬ i - 8 < 8 := by omega
    have h4 : ¬ i - 8 - 8 < 8 := by omega
    have h5 : i - 8 - 8 - 8 < 8 := by omega
    have h2 : (3 - i / 8) * 8 + i % 8 = i - 8 - 8 - 8 := by omega
    simp [h1, h2, h3, h4, h5]

/-- The pattern of a word pair as arithmetic (rule R75). -/
theorem wordPair_toNat (w0 w1 : Word) :
    (wordPair w0 w1).toNat = w1.toNat % 2 ^ 16 * 2 ^ 16 + w0.toNat % 2 ^ 16 := by
  simp only [wordPair, toNat_append_eq, toNat_slice]; omega

theorem lowHalf_toNat (v : Word) : (lowHalf v).toNat = v.toNat % 2 ^ 16 := by
  simp only [lowHalf, BitVec.toNat_setWidth, toNat_slice]; omega

theorem highHalf_toNat (v : Word) : (highHalf v).toNat = v.toNat / 2 ^ 16 := by
  have h := v.isLt
  simp only [highHalf, BitVec.toNat_setWidth, toNat_slice]; omega

/-- Rule R84 as arithmetic. -/
theorem hexChar_toNat (n : Nibble) :
    (hexChar n).toNat = if n.toNat ≤ 9 then 0x30 + n.toNat else 0x41 + (n.toNat - 10) := by
  revert n; decide

/-- Rule R85 as arithmetic. -/
theorem isHex_iff (c : Byte) :
    isHex c = true ↔ (0x30 ≤ c.toNat ∧ c.toNat ≤ 0x39) ∨ (0x41 ≤ c.toNat ∧ c.toNat ≤ 0x46) := by
  simp [isHex]

/-- Every digit hexchar gives is valid (rules R84, R85). -/
theorem isHex_hexChar (n : Nibble) : isHex (hexChar n) = true := by revert n; decide

/-- Rule R86: hexval is the inverse of hexchar. -/
theorem hexVal_hexChar (n : Nibble) : hexVal (hexChar n) = n := by revert n; decide

/-- Rule R86 as arithmetic, on valid characters. -/
theorem hexVal_toNat {c : Byte} (h : isHex c = true) :
    (hexVal c).toNat = if c.toNat ≤ 0x39 then c.toNat - 0x30 else c.toNat - 0x37 := by
  have := (isHex_iff c).1 h
  have hc := c.isLt
  simp only [hexVal]
  split
  · rw [BitVec.toNat_setWidth, BitVec.toNat_sub]; simp; omega
  · rw [BitVec.toNat_setWidth, BitVec.toNat_sub]; simp; omega

/-- Rule R54's width check as arithmetic. -/
theorem fitsWidth_iff {n : Nat} {v : Word} : fitsWidth n v = true ↔ v.toNat < 2 ^ n := by simp [fitsWidth]

theorem fitsWidth_false_iff {n : Nat} {v : Word} : fitsWidth n v = false ↔ 2 ^ n ≤ v.toNat := by simp [fitsWidth]

/-- Rule R42's range check as arithmetic. -/
theorem rangeInBuf_iff {size base len : Nat} : rangeInBuf size base len = true ↔ len = 0 ∨ base + len ≤ size := by
  simp [rangeInBuf]

theorem rangeInBuf_false_iff {size base len : Nat} :
    rangeInBuf size base len = false ↔ len ≠ 0 ∧ size < base + len := by simp [rangeInBuf]

/-- Rule R69's overlap test: two non-empty ranges overlap exactly when they share a byte. -/
theorem rangesShareByte_iff {b₁ n₁ b₂ n₂ : Nat} (h₁ : 0 < n₁) (h₂ : 0 < n₂) :
    rangesShareByte b₁ n₁ b₂ n₂ = true ↔ ∃ a, (b₁ ≤ a ∧ a < b₁ + n₁) ∧ (b₂ ≤ a ∧ a < b₂ + n₂) := by
  simp only [rangesShareByte, Bool.and_eq_true, decide_eq_true_eq]
  constructor
  · intro h; exact ⟨max b₁ b₂, by omega, by omega⟩
  · rintro ⟨a, h, h'⟩; omega

theorem inRange_iff (base len a : Nat) : inRange base len a = true ↔ base ≤ a ∧ a < base + len := by simp [inRange]

/-- `ceil8` of a non-zero count is non-zero, and bit `j` below the count lies in one of the bytes (rules R9, R66). -/
theorem ceil8_pos {n : Nat} (h : n ≠ 0) : 0 < ceil8 n := by simp only [ceil8]; omega

theorem div8_lt_ceil8 {n j : Nat} (h : j < n) : j / 8 < ceil8 n := by simp only [ceil8]; omega

end Sys2Proof.Machine
end

