-- ==== Sys2Proof/Laws/Memory.lean ====
section
/-! SUPPORT. BUF as data: a read after a write, the canonical form kept by every write, canonical memories that read the
same are the same list, and what `MemRead` leaves alone. -/

namespace Sys2Proof.Machine

section Keyed

variable {α : Type}

/-- A key just set holds its value, and every other key holds what it held. -/
theorem findKey_putKey (k k' : Nat) (v : α) (m : List (Nat × α)) :
    findKey k' (putKey k v m) = if k' = k then some v else findKey k' m := by
  induction m with
  | nil => simp [putKey, findKey, eq_comm]
  | cons c m ih =>
    obtain ⟨a, x⟩ := c
    rcases Nat.lt_trichotomy k a with h | h | h
    · simp [putKey, findKey, h, eq_comm]
    · subst h
      by_cases h' : k' = k
      · simp [putKey, findKey, h']
      · simp [putKey, findKey, h', Ne.symm h']
    · have h1 : ¬ k < a := by omega
      have h2 : ¬ k = a := by omega
      simp only [putKey, h1, h2, if_false, findKey, ih]
      by_cases h' : k' = k
      · subst h'; simp [Ne.symm h2]
      · simp [h']

/-- The keys after a write are the old keys and the one written. -/
theorem mem_putKey {k : Nat} {v : α} {m : List (Nat × α)} {c : Nat × α} (h : c ∈ putKey k v m) :
    c = (k, v) ∨ c ∈ m := by
  induction m with
  | nil => simpa [putKey] using h
  | cons d m ih =>
    obtain ⟨a, x⟩ := d
    simp only [putKey] at h
    split at h
    · simpa using h
    · split at h
      · rcases List.mem_cons.1 h with h | h <;> simp [h]
      · rcases List.mem_cons.1 h with h | h
        · simp [h]
        · rcases ih h with h | h <;> simp [h]

/-- A write keeps the keys strictly rising. -/
theorem putKey_sorted (k : Nat) (v : α) {m : List (Nat × α)} (hm : m.Pairwise (fun x y => x.1 < y.1)) :
    (putKey k v m).Pairwise (fun x y => x.1 < y.1) := by
  induction m with
  | nil => simp [putKey]
  | cons c m ih =>
    obtain ⟨a, x⟩ := c
    obtain ⟨h1, h2⟩ := List.pairwise_cons.1 hm
    simp only [putKey]
    split
    · refine List.pairwise_cons.2 ⟨fun d hd => ?_, hm⟩
      rcases List.mem_cons.1 hd with rfl | hd
      · assumption
      · have := h1 d hd; simp only at this ⊢; omega
    · split
      · rename_i h; subst h; exact List.pairwise_cons.2 ⟨h1, h2⟩
      · refine List.pairwise_cons.2 ⟨fun d hd => ?_, ih h2⟩
        rcases mem_putKey hd with rfl | hd
        · simp only; omega
        · exact h1 d hd

/-- A key below every listed key is not listed. -/
theorem findKey_none_of_lt {k : Nat} {m : List (Nat × α)} (h : ∀ c ∈ m, k < c.1) : findKey k m = none := by
  induction m with
  | nil => rfl
  | cons c m ih =>
    obtain ⟨a, x⟩ := c
    have h1 : a ≠ k := by have := h (a, x) (by simp); simp only at this; omega
    simpa [findKey, h1] using ih (fun d hd => h d (by simp [hd]))

/-- A listed key is one of the list's. -/
theorem findKey_mem {k : Nat} {v : α} {m : List (Nat × α)} (h : findKey k m = some v) : (k, v) ∈ m := by
  induction m with
  | nil => simp [findKey] at h
  | cons c m ih =>
    obtain ⟨a, x⟩ := c
    simp only [findKey] at h
    split at h
    · rename_i hk; subst hk; simp_all
    · simp [ih h]

end Keyed

/-- A read after a write (rule R46): the byte written reads as written, and every other byte as before. -/
theorem Memory.read?_write (m : Memory) (a b : Nat) (v : Byte) :
    (m.write a v).read? b = if b = a then some v else m.read? b := findKey_putKey a b v m

@[simp] theorem Memory.read?_write_same (m : Memory) (a : Nat) (v : Byte) : (m.write a v).read? a = some v := by
  simp [Memory.read?_write]

@[simp] theorem Memory.read?_write_other (m : Memory) {a b : Nat} (v : Byte) (h : b ≠ a) :
    (m.write a v).read? b = m.read? b := by
  simp [Memory.read?_write, h]

/-- A write keeps the canonical form. -/
theorem Memory.write_wf (a : Nat) (v : Byte) {m : Memory} (h : m.wf) : (m.write a v).wf := putKey_sorted a v h

/-- A write inside BUF keeps every listed address inside BUF. -/
theorem Memory.write_within {size a : Nat} (v : Byte) {m : Memory} (ha : a < size) (h : m.within size) :
    (m.write a v).within size := by
  intro c hc
  rcases mem_putKey hc with rfl | hc
  · exact ha
  · exact h c hc

/-- BUF after reset is in canonical form. -/
theorem reset_buf_wf : State.reset.buf.wf := by decide

/-- `MemRead` of a byte that has been written returns it and changes nothing. -/
theorem State.memRead_written {s : State} {a : Nat} {v : Byte} (h : s.buf.read? a = some v) : s.memRead a = (v, s) := by
  simp [State.memRead, h]

/-- `MemRead` of a byte that nothing has written draws a free value and changes nothing else. -/
theorem State.memRead_unwritten {s : State} {a : Nat} (h : s.buf.read? a = none) :
    s.memRead a = (Config.freeByte s.freeCount, { s with freeCount := s.freeCount + 1 }) := by
  simp [State.memRead, h]

/-- A host register write carries a value that fits as it is. -/
theorem State.busWord_fits {s : State} {v : Nat} (h : v < 2 ^ 32) : s.busWord v = (BitVec.ofNat 32 v, s) := if_pos h

/-- A host register write of a value that does not fit carries a free value and changes nothing else. -/
theorem State.busWord_wide {s : State} {v : Nat} (h : 2 ^ 32 ≤ v) :
    s.busWord v = (Config.freeWord s.freeCount, { s with freeCount := s.freeCount + 1 }) := if_neg (Nat.not_lt.2 h)

/-- What a host register write carries changes nothing but the draw counter. -/
theorem State.busWord_state (s : State) (v : Nat) : ∃ n, (s.busWord v).2 = { s with freeCount := n } := by
  unfold State.busWord; split <;> exact ⟨_, rfl⟩

/-- A host BUF write carries a value that fits as it is. -/
theorem State.busByte_fits {s : State} {v : Nat} (h : v < 2 ^ 8) : s.busByte v = (BitVec.ofNat 8 v, s) := if_pos h

/-- A host BUF write of a value that does not fit carries a free value and changes nothing else. -/
theorem State.busByte_wide {s : State} {v : Nat} (h : 2 ^ 8 ≤ v) :
    s.busByte v = (Config.freeByte s.freeCount, { s with freeCount := s.freeCount + 1 }) := if_neg (Nat.not_lt.2 h)

/-- What a host BUF write carries changes nothing but the draw counter. -/
theorem State.busByte_state (s : State) (v : Nat) : ∃ n, (s.busByte v).2 = { s with freeCount := n } := by
  unfold State.busByte; split <;> exact ⟨_, rfl⟩

/-- `MemRead` changes nothing but the draw counter. -/
theorem State.memRead_state (s : State) (a : Nat) : ∃ n, (s.memRead a).2 = { s with freeCount := n } := by
  cases h : s.buf.read? a with
  | some v => exact ⟨s.freeCount, by simp [State.memRead_written h]⟩
  | none => exact ⟨s.freeCount + 1, by simp [State.memRead_unwritten h]⟩

end Sys2Proof.Machine
end

