-- ==== Sys2Proof/Laws/State.lean ====
section
/-! SUPPORT. For each named update of a state and each field of State, what the field is after the update: what the
update writes, or what it was. All are true by unfolding, and simp uses them, so that no proof unfolds a record update. -/

namespace Sys2Proof.Machine

variable (s : State)

/-! `State.memWrite` writes buf and nothing else. -/

@[simp] theorem State.memWrite_config (a : Nat) (v : Byte) : (s.memWrite a v).config = s.config := rfl
@[simp] theorem State.memWrite_opA (a : Nat) (v : Byte) : (s.memWrite a v).opA = s.opA := rfl
@[simp] theorem State.memWrite_opB (a : Nat) (v : Byte) : (s.memWrite a v).opB = s.opB := rfl
@[simp] theorem State.memWrite_opC (a : Nat) (v : Byte) : (s.memWrite a v).opC = s.opC := rfl
@[simp] theorem State.memWrite_opD (a : Nat) (v : Byte) : (s.memWrite a v).opD = s.opD := rfl
@[simp] theorem State.memWrite_cmdl (a : Nat) (v : Byte) : (s.memWrite a v).cmdl = s.cmdl := rfl
@[simp] theorem State.memWrite_oplA (a : Nat) (v : Byte) : (s.memWrite a v).oplA = s.oplA := rfl
@[simp] theorem State.memWrite_oplB (a : Nat) (v : Byte) : (s.memWrite a v).oplB = s.oplB := rfl
@[simp] theorem State.memWrite_oplC (a : Nat) (v : Byte) : (s.memWrite a v).oplC = s.oplC := rfl
@[simp] theorem State.memWrite_oplD (a : Nat) (v : Byte) : (s.memWrite a v).oplD = s.oplD := rfl
@[simp] theorem State.memWrite_res0 (a : Nat) (v : Byte) : (s.memWrite a v).res0 = s.res0 := rfl
@[simp] theorem State.memWrite_res1 (a : Nat) (v : Byte) : (s.memWrite a v).res1 = s.res1 := rfl
@[simp] theorem State.memWrite_code (a : Nat) (v : Byte) : (s.memWrite a v).code = s.code := rfl
@[simp] theorem State.memWrite_busy (a : Nat) (v : Byte) : (s.memWrite a v).busy = s.busy := rfl
@[simp] theorem State.memWrite_done (a : Nat) (v : Byte) : (s.memWrite a v).done = s.done := rfl
@[simp] theorem State.memWrite_ovr (a : Nat) (v : Byte) : (s.memWrite a v).ovr = s.ovr := rfl
@[simp] theorem State.memWrite_buf (a : Nat) (v : Byte) : (s.memWrite a v).buf = s.buf.write a v := rfl
@[simp] theorem State.memWrite_hostFault (a : Nat) (v : Byte) : (s.memWrite a v).hostFault = s.hostFault := rfl
@[simp] theorem State.memWrite_host (a : Nat) (v : Byte) : (s.memWrite a v).host = s.host := rfl
@[simp] theorem State.memWrite_schedule (a : Nat) (v : Byte) : (s.memWrite a v).schedule = s.schedule := rfl
@[simp] theorem State.memWrite_freeCount (a : Nat) (v : Byte) : (s.memWrite a v).freeCount = s.freeCount := rfl

/-! `State.setRes0` writes res0 and nothing else. -/

@[simp] theorem State.setRes0_config (v : Word) : (s.setRes0 v).config = s.config := rfl
@[simp] theorem State.setRes0_opA (v : Word) : (s.setRes0 v).opA = s.opA := rfl
@[simp] theorem State.setRes0_opB (v : Word) : (s.setRes0 v).opB = s.opB := rfl
@[simp] theorem State.setRes0_opC (v : Word) : (s.setRes0 v).opC = s.opC := rfl
@[simp] theorem State.setRes0_opD (v : Word) : (s.setRes0 v).opD = s.opD := rfl
@[simp] theorem State.setRes0_cmdl (v : Word) : (s.setRes0 v).cmdl = s.cmdl := rfl
@[simp] theorem State.setRes0_oplA (v : Word) : (s.setRes0 v).oplA = s.oplA := rfl
@[simp] theorem State.setRes0_oplB (v : Word) : (s.setRes0 v).oplB = s.oplB := rfl
@[simp] theorem State.setRes0_oplC (v : Word) : (s.setRes0 v).oplC = s.oplC := rfl
@[simp] theorem State.setRes0_oplD (v : Word) : (s.setRes0 v).oplD = s.oplD := rfl
@[simp] theorem State.setRes0_res0 (v : Word) : (s.setRes0 v).res0 = v := rfl
@[simp] theorem State.setRes0_res1 (v : Word) : (s.setRes0 v).res1 = s.res1 := rfl
@[simp] theorem State.setRes0_code (v : Word) : (s.setRes0 v).code = s.code := rfl
@[simp] theorem State.setRes0_busy (v : Word) : (s.setRes0 v).busy = s.busy := rfl
@[simp] theorem State.setRes0_done (v : Word) : (s.setRes0 v).done = s.done := rfl
@[simp] theorem State.setRes0_ovr (v : Word) : (s.setRes0 v).ovr = s.ovr := rfl
@[simp] theorem State.setRes0_buf (v : Word) : (s.setRes0 v).buf = s.buf := rfl
@[simp] theorem State.setRes0_hostFault (v : Word) : (s.setRes0 v).hostFault = s.hostFault := rfl
@[simp] theorem State.setRes0_host (v : Word) : (s.setRes0 v).host = s.host := rfl
@[simp] theorem State.setRes0_schedule (v : Word) : (s.setRes0 v).schedule = s.schedule := rfl
@[simp] theorem State.setRes0_freeCount (v : Word) : (s.setRes0 v).freeCount = s.freeCount := rfl

/-! `State.setRes1` writes res1 and nothing else. -/

@[simp] theorem State.setRes1_config (v : Word) : (s.setRes1 v).config = s.config := rfl
@[simp] theorem State.setRes1_opA (v : Word) : (s.setRes1 v).opA = s.opA := rfl
@[simp] theorem State.setRes1_opB (v : Word) : (s.setRes1 v).opB = s.opB := rfl
@[simp] theorem State.setRes1_opC (v : Word) : (s.setRes1 v).opC = s.opC := rfl
@[simp] theorem State.setRes1_opD (v : Word) : (s.setRes1 v).opD = s.opD := rfl
@[simp] theorem State.setRes1_cmdl (v : Word) : (s.setRes1 v).cmdl = s.cmdl := rfl
@[simp] theorem State.setRes1_oplA (v : Word) : (s.setRes1 v).oplA = s.oplA := rfl
@[simp] theorem State.setRes1_oplB (v : Word) : (s.setRes1 v).oplB = s.oplB := rfl
@[simp] theorem State.setRes1_oplC (v : Word) : (s.setRes1 v).oplC = s.oplC := rfl
@[simp] theorem State.setRes1_oplD (v : Word) : (s.setRes1 v).oplD = s.oplD := rfl
@[simp] theorem State.setRes1_res0 (v : Word) : (s.setRes1 v).res0 = s.res0 := rfl
@[simp] theorem State.setRes1_res1 (v : Word) : (s.setRes1 v).res1 = v := rfl
@[simp] theorem State.setRes1_code (v : Word) : (s.setRes1 v).code = s.code := rfl
@[simp] theorem State.setRes1_busy (v : Word) : (s.setRes1 v).busy = s.busy := rfl
@[simp] theorem State.setRes1_done (v : Word) : (s.setRes1 v).done = s.done := rfl
@[simp] theorem State.setRes1_ovr (v : Word) : (s.setRes1 v).ovr = s.ovr := rfl
@[simp] theorem State.setRes1_buf (v : Word) : (s.setRes1 v).buf = s.buf := rfl
@[simp] theorem State.setRes1_hostFault (v : Word) : (s.setRes1 v).hostFault = s.hostFault := rfl
@[simp] theorem State.setRes1_host (v : Word) : (s.setRes1 v).host = s.host := rfl
@[simp] theorem State.setRes1_schedule (v : Word) : (s.setRes1 v).schedule = s.schedule := rfl
@[simp] theorem State.setRes1_freeCount (v : Word) : (s.setRes1 v).freeCount = s.freeCount := rfl

/-! `State.complete` writes code, busy, done and nothing else. -/

@[simp] theorem State.complete_config (c : ResultCode) : (s.complete c).config = s.config := rfl
@[simp] theorem State.complete_opA (c : ResultCode) : (s.complete c).opA = s.opA := rfl
@[simp] theorem State.complete_opB (c : ResultCode) : (s.complete c).opB = s.opB := rfl
@[simp] theorem State.complete_opC (c : ResultCode) : (s.complete c).opC = s.opC := rfl
@[simp] theorem State.complete_opD (c : ResultCode) : (s.complete c).opD = s.opD := rfl
@[simp] theorem State.complete_cmdl (c : ResultCode) : (s.complete c).cmdl = s.cmdl := rfl
@[simp] theorem State.complete_oplA (c : ResultCode) : (s.complete c).oplA = s.oplA := rfl
@[simp] theorem State.complete_oplB (c : ResultCode) : (s.complete c).oplB = s.oplB := rfl
@[simp] theorem State.complete_oplC (c : ResultCode) : (s.complete c).oplC = s.oplC := rfl
@[simp] theorem State.complete_oplD (c : ResultCode) : (s.complete c).oplD = s.oplD := rfl
@[simp] theorem State.complete_res0 (c : ResultCode) : (s.complete c).res0 = s.res0 := rfl
@[simp] theorem State.complete_res1 (c : ResultCode) : (s.complete c).res1 = s.res1 := rfl
@[simp] theorem State.complete_code (c : ResultCode) : (s.complete c).code = c := rfl
@[simp] theorem State.complete_busy (c : ResultCode) : (s.complete c).busy = false := rfl
@[simp] theorem State.complete_done (c : ResultCode) : (s.complete c).done = true := rfl
@[simp] theorem State.complete_ovr (c : ResultCode) : (s.complete c).ovr = s.ovr := rfl
@[simp] theorem State.complete_buf (c : ResultCode) : (s.complete c).buf = s.buf := rfl
@[simp] theorem State.complete_hostFault (c : ResultCode) : (s.complete c).hostFault = s.hostFault := rfl
@[simp] theorem State.complete_host (c : ResultCode) : (s.complete c).host = s.host := rfl
@[simp] theorem State.complete_schedule (c : ResultCode) : (s.complete c).schedule = s.schedule := rfl
@[simp] theorem State.complete_freeCount (c : ResultCode) : (s.complete c).freeCount = s.freeCount := rfl

/-! `State.accept` writes cmdl, oplA, oplB, oplC, oplD, code, busy, done and nothing else. -/

@[simp] theorem State.accept_config (w : Word) : (s.accept w).config = s.config := rfl
@[simp] theorem State.accept_opA (w : Word) : (s.accept w).opA = s.opA := rfl
@[simp] theorem State.accept_opB (w : Word) : (s.accept w).opB = s.opB := rfl
@[simp] theorem State.accept_opC (w : Word) : (s.accept w).opC = s.opC := rfl
@[simp] theorem State.accept_opD (w : Word) : (s.accept w).opD = s.opD := rfl
@[simp] theorem State.accept_cmdl (w : Word) : (s.accept w).cmdl = w := rfl
@[simp] theorem State.accept_oplA (w : Word) : (s.accept w).oplA = s.opA := rfl
@[simp] theorem State.accept_oplB (w : Word) : (s.accept w).oplB = s.opB := rfl
@[simp] theorem State.accept_oplC (w : Word) : (s.accept w).oplC = s.opC := rfl
@[simp] theorem State.accept_oplD (w : Word) : (s.accept w).oplD = s.opD := rfl
@[simp] theorem State.accept_res0 (w : Word) : (s.accept w).res0 = s.res0 := rfl
@[simp] theorem State.accept_res1 (w : Word) : (s.accept w).res1 = s.res1 := rfl
@[simp] theorem State.accept_code (w : Word) : (s.accept w).code = .ok := rfl
@[simp] theorem State.accept_busy (w : Word) : (s.accept w).busy = true := rfl
@[simp] theorem State.accept_done (w : Word) : (s.accept w).done = false := rfl
@[simp] theorem State.accept_ovr (w : Word) : (s.accept w).ovr = s.ovr := rfl
@[simp] theorem State.accept_buf (w : Word) : (s.accept w).buf = s.buf := rfl
@[simp] theorem State.accept_hostFault (w : Word) : (s.accept w).hostFault = s.hostFault := rfl
@[simp] theorem State.accept_host (w : Word) : (s.accept w).host = s.host := rfl
@[simp] theorem State.accept_schedule (w : Word) : (s.accept w).schedule = s.schedule := rfl
@[simp] theorem State.accept_freeCount (w : Word) : (s.accept w).freeCount = s.freeCount := rfl

/-! `State.dropCommand` writes ovr and nothing else. -/

@[simp] theorem State.dropCommand_config : (s.dropCommand).config = s.config := rfl
@[simp] theorem State.dropCommand_opA : (s.dropCommand).opA = s.opA := rfl
@[simp] theorem State.dropCommand_opB : (s.dropCommand).opB = s.opB := rfl
@[simp] theorem State.dropCommand_opC : (s.dropCommand).opC = s.opC := rfl
@[simp] theorem State.dropCommand_opD : (s.dropCommand).opD = s.opD := rfl
@[simp] theorem State.dropCommand_cmdl : (s.dropCommand).cmdl = s.cmdl := rfl
@[simp] theorem State.dropCommand_oplA : (s.dropCommand).oplA = s.oplA := rfl
@[simp] theorem State.dropCommand_oplB : (s.dropCommand).oplB = s.oplB := rfl
@[simp] theorem State.dropCommand_oplC : (s.dropCommand).oplC = s.oplC := rfl
@[simp] theorem State.dropCommand_oplD : (s.dropCommand).oplD = s.oplD := rfl
@[simp] theorem State.dropCommand_res0 : (s.dropCommand).res0 = s.res0 := rfl
@[simp] theorem State.dropCommand_res1 : (s.dropCommand).res1 = s.res1 := rfl
@[simp] theorem State.dropCommand_code : (s.dropCommand).code = s.code := rfl
@[simp] theorem State.dropCommand_busy : (s.dropCommand).busy = s.busy := rfl
@[simp] theorem State.dropCommand_done : (s.dropCommand).done = s.done := rfl
@[simp] theorem State.dropCommand_ovr : (s.dropCommand).ovr = true := rfl
@[simp] theorem State.dropCommand_buf : (s.dropCommand).buf = s.buf := rfl
@[simp] theorem State.dropCommand_hostFault : (s.dropCommand).hostFault = s.hostFault := rfl
@[simp] theorem State.dropCommand_host : (s.dropCommand).host = s.host := rfl
@[simp] theorem State.dropCommand_schedule : (s.dropCommand).schedule = s.schedule := rfl
@[simp] theorem State.dropCommand_freeCount : (s.dropCommand).freeCount = s.freeCount := rfl

/-! `State.markFault` writes hostFault and nothing else. -/

@[simp] theorem State.markFault_config (f : Fault) : (s.markFault f).config = s.config := rfl
@[simp] theorem State.markFault_opA (f : Fault) : (s.markFault f).opA = s.opA := rfl
@[simp] theorem State.markFault_opB (f : Fault) : (s.markFault f).opB = s.opB := rfl
@[simp] theorem State.markFault_opC (f : Fault) : (s.markFault f).opC = s.opC := rfl
@[simp] theorem State.markFault_opD (f : Fault) : (s.markFault f).opD = s.opD := rfl
@[simp] theorem State.markFault_cmdl (f : Fault) : (s.markFault f).cmdl = s.cmdl := rfl
@[simp] theorem State.markFault_oplA (f : Fault) : (s.markFault f).oplA = s.oplA := rfl
@[simp] theorem State.markFault_oplB (f : Fault) : (s.markFault f).oplB = s.oplB := rfl
@[simp] theorem State.markFault_oplC (f : Fault) : (s.markFault f).oplC = s.oplC := rfl
@[simp] theorem State.markFault_oplD (f : Fault) : (s.markFault f).oplD = s.oplD := rfl
@[simp] theorem State.markFault_res0 (f : Fault) : (s.markFault f).res0 = s.res0 := rfl
@[simp] theorem State.markFault_res1 (f : Fault) : (s.markFault f).res1 = s.res1 := rfl
@[simp] theorem State.markFault_code (f : Fault) : (s.markFault f).code = s.code := rfl
@[simp] theorem State.markFault_busy (f : Fault) : (s.markFault f).busy = s.busy := rfl
@[simp] theorem State.markFault_done (f : Fault) : (s.markFault f).done = s.done := rfl
@[simp] theorem State.markFault_ovr (f : Fault) : (s.markFault f).ovr = s.ovr := rfl
@[simp] theorem State.markFault_buf (f : Fault) : (s.markFault f).buf = s.buf := rfl
@[simp] theorem State.markFault_hostFault (f : Fault) : (s.markFault f).hostFault = some f := rfl
@[simp] theorem State.markFault_host (f : Fault) : (s.markFault f).host = s.host := rfl
@[simp] theorem State.markFault_schedule (f : Fault) : (s.markFault f).schedule = s.schedule := rfl
@[simp] theorem State.markFault_freeCount (f : Fault) : (s.markFault f).freeCount = s.freeCount := rfl

/-! `State.withSchedule` writes schedule and nothing else. -/

@[simp] theorem State.withSchedule_config (ts : List Turn) : (s.withSchedule ts).config = s.config := rfl
@[simp] theorem State.withSchedule_opA (ts : List Turn) : (s.withSchedule ts).opA = s.opA := rfl
@[simp] theorem State.withSchedule_opB (ts : List Turn) : (s.withSchedule ts).opB = s.opB := rfl
@[simp] theorem State.withSchedule_opC (ts : List Turn) : (s.withSchedule ts).opC = s.opC := rfl
@[simp] theorem State.withSchedule_opD (ts : List Turn) : (s.withSchedule ts).opD = s.opD := rfl
@[simp] theorem State.withSchedule_cmdl (ts : List Turn) : (s.withSchedule ts).cmdl = s.cmdl := rfl
@[simp] theorem State.withSchedule_oplA (ts : List Turn) : (s.withSchedule ts).oplA = s.oplA := rfl
@[simp] theorem State.withSchedule_oplB (ts : List Turn) : (s.withSchedule ts).oplB = s.oplB := rfl
@[simp] theorem State.withSchedule_oplC (ts : List Turn) : (s.withSchedule ts).oplC = s.oplC := rfl
@[simp] theorem State.withSchedule_oplD (ts : List Turn) : (s.withSchedule ts).oplD = s.oplD := rfl
@[simp] theorem State.withSchedule_res0 (ts : List Turn) : (s.withSchedule ts).res0 = s.res0 := rfl
@[simp] theorem State.withSchedule_res1 (ts : List Turn) : (s.withSchedule ts).res1 = s.res1 := rfl
@[simp] theorem State.withSchedule_code (ts : List Turn) : (s.withSchedule ts).code = s.code := rfl
@[simp] theorem State.withSchedule_busy (ts : List Turn) : (s.withSchedule ts).busy = s.busy := rfl
@[simp] theorem State.withSchedule_done (ts : List Turn) : (s.withSchedule ts).done = s.done := rfl
@[simp] theorem State.withSchedule_ovr (ts : List Turn) : (s.withSchedule ts).ovr = s.ovr := rfl
@[simp] theorem State.withSchedule_buf (ts : List Turn) : (s.withSchedule ts).buf = s.buf := rfl
@[simp] theorem State.withSchedule_hostFault (ts : List Turn) : (s.withSchedule ts).hostFault = s.hostFault := rfl
@[simp] theorem State.withSchedule_host (ts : List Turn) : (s.withSchedule ts).host = s.host := rfl
@[simp] theorem State.withSchedule_schedule (ts : List Turn) : (s.withSchedule ts).schedule = ts := rfl
@[simp] theorem State.withSchedule_freeCount (ts : List Turn) : (s.withSchedule ts).freeCount = s.freeCount := rfl

/-! `writeStatus` writes ovr and nothing else. -/

@[simp] theorem writeStatus_config (w : Word) : (writeStatus w s).config = s.config := rfl
@[simp] theorem writeStatus_opA (w : Word) : (writeStatus w s).opA = s.opA := rfl
@[simp] theorem writeStatus_opB (w : Word) : (writeStatus w s).opB = s.opB := rfl
@[simp] theorem writeStatus_opC (w : Word) : (writeStatus w s).opC = s.opC := rfl
@[simp] theorem writeStatus_opD (w : Word) : (writeStatus w s).opD = s.opD := rfl
@[simp] theorem writeStatus_cmdl (w : Word) : (writeStatus w s).cmdl = s.cmdl := rfl
@[simp] theorem writeStatus_oplA (w : Word) : (writeStatus w s).oplA = s.oplA := rfl
@[simp] theorem writeStatus_oplB (w : Word) : (writeStatus w s).oplB = s.oplB := rfl
@[simp] theorem writeStatus_oplC (w : Word) : (writeStatus w s).oplC = s.oplC := rfl
@[simp] theorem writeStatus_oplD (w : Word) : (writeStatus w s).oplD = s.oplD := rfl
@[simp] theorem writeStatus_res0 (w : Word) : (writeStatus w s).res0 = s.res0 := rfl
@[simp] theorem writeStatus_res1 (w : Word) : (writeStatus w s).res1 = s.res1 := rfl
@[simp] theorem writeStatus_code (w : Word) : (writeStatus w s).code = s.code := rfl
@[simp] theorem writeStatus_busy (w : Word) : (writeStatus w s).busy = s.busy := rfl
@[simp] theorem writeStatus_done (w : Word) : (writeStatus w s).done = s.done := rfl
@[simp] theorem writeStatus_ovr (w : Word) : (writeStatus w s).ovr = ovrAfterWrite w s.ovr := rfl
@[simp] theorem writeStatus_buf (w : Word) : (writeStatus w s).buf = s.buf := rfl
@[simp] theorem writeStatus_hostFault (w : Word) : (writeStatus w s).hostFault = s.hostFault := rfl
@[simp] theorem writeStatus_host (w : Word) : (writeStatus w s).host = s.host := rfl
@[simp] theorem writeStatus_schedule (w : Word) : (writeStatus w s).schedule = s.schedule := rfl
@[simp] theorem writeStatus_freeCount (w : Word) : (writeStatus w s).freeCount = s.freeCount := rfl

/-! `State.hostNext` writes host and nothing else. -/

@[simp] theorem State.hostNext_config : (s.hostNext).config = s.config := rfl
@[simp] theorem State.hostNext_opA : (s.hostNext).opA = s.opA := rfl
@[simp] theorem State.hostNext_opB : (s.hostNext).opB = s.opB := rfl
@[simp] theorem State.hostNext_opC : (s.hostNext).opC = s.opC := rfl
@[simp] theorem State.hostNext_opD : (s.hostNext).opD = s.opD := rfl
@[simp] theorem State.hostNext_cmdl : (s.hostNext).cmdl = s.cmdl := rfl
@[simp] theorem State.hostNext_oplA : (s.hostNext).oplA = s.oplA := rfl
@[simp] theorem State.hostNext_oplB : (s.hostNext).oplB = s.oplB := rfl
@[simp] theorem State.hostNext_oplC : (s.hostNext).oplC = s.oplC := rfl
@[simp] theorem State.hostNext_oplD : (s.hostNext).oplD = s.oplD := rfl
@[simp] theorem State.hostNext_res0 : (s.hostNext).res0 = s.res0 := rfl
@[simp] theorem State.hostNext_res1 : (s.hostNext).res1 = s.res1 := rfl
@[simp] theorem State.hostNext_code : (s.hostNext).code = s.code := rfl
@[simp] theorem State.hostNext_busy : (s.hostNext).busy = s.busy := rfl
@[simp] theorem State.hostNext_done : (s.hostNext).done = s.done := rfl
@[simp] theorem State.hostNext_ovr : (s.hostNext).ovr = s.ovr := rfl
@[simp] theorem State.hostNext_buf : (s.hostNext).buf = s.buf := rfl
@[simp] theorem State.hostNext_hostFault : (s.hostNext).hostFault = s.hostFault := rfl
@[simp] theorem State.hostNext_host : (s.hostNext).host = { s.host with pc := s.host.pc + 1 } := rfl
@[simp] theorem State.hostNext_schedule : (s.hostNext).schedule = s.schedule := rfl
@[simp] theorem State.hostNext_freeCount : (s.hostNext).freeCount = s.freeCount := rfl

/-! `State.hostNote` writes host and nothing else. -/

@[simp] theorem State.hostNote_config (x : Seen) : (s.hostNote x).config = s.config := rfl
@[simp] theorem State.hostNote_opA (x : Seen) : (s.hostNote x).opA = s.opA := rfl
@[simp] theorem State.hostNote_opB (x : Seen) : (s.hostNote x).opB = s.opB := rfl
@[simp] theorem State.hostNote_opC (x : Seen) : (s.hostNote x).opC = s.opC := rfl
@[simp] theorem State.hostNote_opD (x : Seen) : (s.hostNote x).opD = s.opD := rfl
@[simp] theorem State.hostNote_cmdl (x : Seen) : (s.hostNote x).cmdl = s.cmdl := rfl
@[simp] theorem State.hostNote_oplA (x : Seen) : (s.hostNote x).oplA = s.oplA := rfl
@[simp] theorem State.hostNote_oplB (x : Seen) : (s.hostNote x).oplB = s.oplB := rfl
@[simp] theorem State.hostNote_oplC (x : Seen) : (s.hostNote x).oplC = s.oplC := rfl
@[simp] theorem State.hostNote_oplD (x : Seen) : (s.hostNote x).oplD = s.oplD := rfl
@[simp] theorem State.hostNote_res0 (x : Seen) : (s.hostNote x).res0 = s.res0 := rfl
@[simp] theorem State.hostNote_res1 (x : Seen) : (s.hostNote x).res1 = s.res1 := rfl
@[simp] theorem State.hostNote_code (x : Seen) : (s.hostNote x).code = s.code := rfl
@[simp] theorem State.hostNote_busy (x : Seen) : (s.hostNote x).busy = s.busy := rfl
@[simp] theorem State.hostNote_done (x : Seen) : (s.hostNote x).done = s.done := rfl
@[simp] theorem State.hostNote_ovr (x : Seen) : (s.hostNote x).ovr = s.ovr := rfl
@[simp] theorem State.hostNote_buf (x : Seen) : (s.hostNote x).buf = s.buf := rfl
@[simp] theorem State.hostNote_hostFault (x : Seen) : (s.hostNote x).hostFault = s.hostFault := rfl
@[simp] theorem State.hostNote_host (x : Seen) : (s.hostNote x).host = { s.host with trace := s.host.trace ++ [x] } := rfl
@[simp] theorem State.hostNote_schedule (x : Seen) : (s.hostNote x).schedule = s.schedule := rfl
@[simp] theorem State.hostNote_freeCount (x : Seen) : (s.hostNote x).freeCount = s.freeCount := rfl

/-! `State.hostBind` writes host and nothing else. -/

@[simp] theorem State.hostBind_config (x v : Nat) : (s.hostBind x v).config = s.config := rfl
@[simp] theorem State.hostBind_opA (x v : Nat) : (s.hostBind x v).opA = s.opA := rfl
@[simp] theorem State.hostBind_opB (x v : Nat) : (s.hostBind x v).opB = s.opB := rfl
@[simp] theorem State.hostBind_opC (x v : Nat) : (s.hostBind x v).opC = s.opC := rfl
@[simp] theorem State.hostBind_opD (x v : Nat) : (s.hostBind x v).opD = s.opD := rfl
@[simp] theorem State.hostBind_cmdl (x v : Nat) : (s.hostBind x v).cmdl = s.cmdl := rfl
@[simp] theorem State.hostBind_oplA (x v : Nat) : (s.hostBind x v).oplA = s.oplA := rfl
@[simp] theorem State.hostBind_oplB (x v : Nat) : (s.hostBind x v).oplB = s.oplB := rfl
@[simp] theorem State.hostBind_oplC (x v : Nat) : (s.hostBind x v).oplC = s.oplC := rfl
@[simp] theorem State.hostBind_oplD (x v : Nat) : (s.hostBind x v).oplD = s.oplD := rfl
@[simp] theorem State.hostBind_res0 (x v : Nat) : (s.hostBind x v).res0 = s.res0 := rfl
@[simp] theorem State.hostBind_res1 (x v : Nat) : (s.hostBind x v).res1 = s.res1 := rfl
@[simp] theorem State.hostBind_code (x v : Nat) : (s.hostBind x v).code = s.code := rfl
@[simp] theorem State.hostBind_busy (x v : Nat) : (s.hostBind x v).busy = s.busy := rfl
@[simp] theorem State.hostBind_done (x v : Nat) : (s.hostBind x v).done = s.done := rfl
@[simp] theorem State.hostBind_ovr (x v : Nat) : (s.hostBind x v).ovr = s.ovr := rfl
@[simp] theorem State.hostBind_buf (x v : Nat) : (s.hostBind x v).buf = s.buf := rfl
@[simp] theorem State.hostBind_hostFault (x v : Nat) : (s.hostBind x v).hostFault = s.hostFault := rfl
@[simp] theorem State.hostBind_host (x v : Nat) : (s.hostBind x v).host = { s.host with vars := putKey x v s.host.vars } := rfl
@[simp] theorem State.hostBind_schedule (x v : Nat) : (s.hostBind x v).schedule = s.schedule := rfl
@[simp] theorem State.hostBind_freeCount (x v : Nat) : (s.hostBind x v).freeCount = s.freeCount := rfl

/-! `State.clearBlock` writes opA, opB, opC, opD, cmdl, oplA, oplB, oplC, oplD, res0, res1, code, busy, done, ovr and nothing else. -/

@[simp] theorem State.clearBlock_config : (s.clearBlock).config = s.config := rfl
@[simp] theorem State.clearBlock_opA : (s.clearBlock).opA = 0#32 := rfl
@[simp] theorem State.clearBlock_opB : (s.clearBlock).opB = 0#32 := rfl
@[simp] theorem State.clearBlock_opC : (s.clearBlock).opC = 0#32 := rfl
@[simp] theorem State.clearBlock_opD : (s.clearBlock).opD = 0#32 := rfl
@[simp] theorem State.clearBlock_cmdl : (s.clearBlock).cmdl = 0#32 := rfl
@[simp] theorem State.clearBlock_oplA : (s.clearBlock).oplA = 0#32 := rfl
@[simp] theorem State.clearBlock_oplB : (s.clearBlock).oplB = 0#32 := rfl
@[simp] theorem State.clearBlock_oplC : (s.clearBlock).oplC = 0#32 := rfl
@[simp] theorem State.clearBlock_oplD : (s.clearBlock).oplD = 0#32 := rfl
@[simp] theorem State.clearBlock_res0 : (s.clearBlock).res0 = 0#32 := rfl
@[simp] theorem State.clearBlock_res1 : (s.clearBlock).res1 = 0#32 := rfl
@[simp] theorem State.clearBlock_code : (s.clearBlock).code = .ok := rfl
@[simp] theorem State.clearBlock_busy : (s.clearBlock).busy = false := rfl
@[simp] theorem State.clearBlock_done : (s.clearBlock).done = false := rfl
@[simp] theorem State.clearBlock_ovr : (s.clearBlock).ovr = false := rfl
@[simp] theorem State.clearBlock_buf : (s.clearBlock).buf = s.buf := rfl
@[simp] theorem State.clearBlock_hostFault : (s.clearBlock).hostFault = s.hostFault := rfl
@[simp] theorem State.clearBlock_host : (s.clearBlock).host = s.host := rfl
@[simp] theorem State.clearBlock_schedule : (s.clearBlock).schedule = s.schedule := rfl
@[simp] theorem State.clearBlock_freeCount : (s.clearBlock).freeCount = s.freeCount := rfl

/-! `State.placeCommand` writes cmdl, code, busy, done, hostFault, schedule and nothing else. -/

@[simp] theorem State.placeCommand_config (w : Word) : (s.placeCommand w).config = s.config := rfl
@[simp] theorem State.placeCommand_opA (w : Word) : (s.placeCommand w).opA = s.opA := rfl
@[simp] theorem State.placeCommand_opB (w : Word) : (s.placeCommand w).opB = s.opB := rfl
@[simp] theorem State.placeCommand_opC (w : Word) : (s.placeCommand w).opC = s.opC := rfl
@[simp] theorem State.placeCommand_opD (w : Word) : (s.placeCommand w).opD = s.opD := rfl
@[simp] theorem State.placeCommand_cmdl (w : Word) : (s.placeCommand w).cmdl = w := rfl
@[simp] theorem State.placeCommand_oplA (w : Word) : (s.placeCommand w).oplA = s.oplA := rfl
@[simp] theorem State.placeCommand_oplB (w : Word) : (s.placeCommand w).oplB = s.oplB := rfl
@[simp] theorem State.placeCommand_oplC (w : Word) : (s.placeCommand w).oplC = s.oplC := rfl
@[simp] theorem State.placeCommand_oplD (w : Word) : (s.placeCommand w).oplD = s.oplD := rfl
@[simp] theorem State.placeCommand_res0 (w : Word) : (s.placeCommand w).res0 = s.res0 := rfl
@[simp] theorem State.placeCommand_res1 (w : Word) : (s.placeCommand w).res1 = s.res1 := rfl
@[simp] theorem State.placeCommand_code (w : Word) : (s.placeCommand w).code = .ok := rfl
@[simp] theorem State.placeCommand_busy (w : Word) : (s.placeCommand w).busy = true := rfl
@[simp] theorem State.placeCommand_done (w : Word) : (s.placeCommand w).done = false := rfl
@[simp] theorem State.placeCommand_ovr (w : Word) : (s.placeCommand w).ovr = s.ovr := rfl
@[simp] theorem State.placeCommand_buf (w : Word) : (s.placeCommand w).buf = s.buf := rfl
@[simp] theorem State.placeCommand_hostFault (w : Word) : (s.placeCommand w).hostFault = none := rfl
@[simp] theorem State.placeCommand_host (w : Word) : (s.placeCommand w).host = s.host := rfl
@[simp] theorem State.placeCommand_schedule (w : Word) : (s.placeCommand w).schedule = .unit :: s.schedule := rfl
@[simp] theorem State.placeCommand_freeCount (w : Word) : (s.placeCommand w).freeCount = s.freeCount := rfl

end Sys2Proof.Machine
end

