-- ==== Sys2Proof/Laws/Loops.lean ====
section
/-! SUPPORT. What each loop of the bit codec and of the reset event does, said once: the state it leaves, the bytes it
writes and the bits it gathers. -/

namespace Sys2Proof.Machine

@[simp] theorem flagByte_true : flagByte true = 0x01#8 := rfl
@[simp] theorem flagByte_false : flagByte false = 0x00#8 := rfl

/-- A flag byte is 0x00 or 0x01 (rule R67). -/
theorem flagByte_cases (b : Bool) : flagByte b = 0x00#8 ∨ flagByte b = 0x01#8 := by cases b <;> simp

/-- A flag byte is non-zero exactly when its flag is set (rule R67). -/
theorem flagByte_ne_zero (b : Bool) : (flagByte b ≠ 0x00#8) ↔ b = true := by cases b <;> simp

/-- Rule R68's loop changes BUF alone. -/
theorem expandByteLoop_state (base : Nat) (v : Word) (n : Nat) (s : State) :
    expandByteLoop base v n s = { s with buf := (expandByteLoop base v n s).buf } := by
  induction n with
  | zero => rfl
  | succ n ih => rw [expandByteLoop, ih]; rfl

/-- Rule R68's loop writes bit `i` of the value at `base + i` for each `i` below `n`, and no other byte. -/
theorem expandByteLoop_read (base : Nat) (v : Word) (n : Nat) (s : State) (a : Nat) :
    (expandByteLoop base v n s).buf.read? a =
      if base ≤ a ∧ a < base + n then some (flagByte (v.getLsbD (a - base))) else s.buf.read? a := by
  induction n with
  | zero => rw [if_neg (by omega)]; rfl
  | succ n ih =>
    simp only [expandByteLoop, State.memWrite_buf, Memory.read?_write, ih]
    by_cases h : a = base + n
    · subst h; simp
    · have : (base ≤ a ∧ a < base + n) ↔ (base ≤ a ∧ a < base + (n + 1)) := by omega
      simp [h, this]

theorem expandByteLoop_wf (base : Nat) (v : Word) (n : Nat) {s : State} (h : s.buf.wf) :
    (expandByteLoop base v n s).buf.wf := by
  induction n with
  | zero => exact h
  | succ n ih => exact Memory.write_wf _ _ ih

theorem expandByteLoop_within {size base : Nat} (v : Word) {n : Nat} {s : State} (hb : base + n ≤ size)
    (h : s.buf.within size) : (expandByteLoop base v n s).buf.within size := by
  induction n with
  | zero => exact h
  | succ n ih => exact Memory.write_within _ (by omega) (ih (by omega))

/-- One iteration of rule R69's loop changes BUF and the draw counter alone. -/
theorem expandBit_state (dbase src j : Nat) (s : State) :
    ∃ m n, expandBit dbase src j s = { s with buf := m, freeCount := n } := by
  obtain ⟨n, hn⟩ := s.memRead_state (src + j / 8)
  exact ⟨_, n, by rw [expandBit, hn]; rfl⟩

/-- One iteration of rule R69's loop writes a flag at `dbase + j` and no other byte. -/
theorem expandBit_buf (dbase src j : Nat) (s : State) :
    (expandBit dbase src j s).buf =
      s.buf.write (dbase + j) (flagByte ((s.memRead (src + j / 8)).1.getLsbD (j % 8))) := by
  obtain ⟨n, hn⟩ := s.memRead_state (src + j / 8)
  simp [expandBit, hn]

/-- Rule R69's loop changes BUF and the draw counter alone. -/
theorem expandBytesLoop_state (dbase src n : Nat) (s : State) :
    ∃ m k, expandBytesLoop dbase src n s = { s with buf := m, freeCount := k } := by
  induction n with
  | zero => exact ⟨s.buf, s.freeCount, rfl⟩
  | succ n ih =>
    obtain ⟨m, k, h⟩ := ih
    obtain ⟨m', k', h'⟩ := expandBit_state dbase src n { s with buf := m, freeCount := k }
    exact ⟨m', k', by rw [expandBytesLoop, h, h']⟩

/-- Rule R69's loop leaves every byte outside `[dbase, dbase + n)` as it was. -/
theorem expandBytesLoop_read_outside (dbase src n : Nat) (s : State) {a : Nat} (h : a < dbase ∨ dbase + n ≤ a) :
    (expandBytesLoop dbase src n s).buf.read? a = s.buf.read? a := by
  induction n with
  | zero => rfl
  | succ n ih =>
    rw [expandBytesLoop, expandBit_buf, Memory.read?_write_other _ _ (by omega), ih (by omega)]

/-- Rule R69's loop writes 0x00 or 0x01 at each entry (rule R67). -/
theorem expandBytesLoop_read_flag (dbase src n : Nat) (s : State) {j : Nat} (hj : j < n) :
    ∃ b, (expandBytesLoop dbase src n s).buf.read? (dbase + j) = some (flagByte b) := by
  induction n with
  | zero => omega
  | succ n ih =>
    rw [expandBytesLoop, expandBit_buf, Memory.read?_write]
    by_cases h : j = n
    · exact ⟨_, by rw [if_pos (by omega)]⟩
    · obtain ⟨b, hb⟩ := ih (by omega)
      exact ⟨b, by rw [if_neg (by omega), hb]⟩

/-- Rule R69's loop copies bit `j mod 8` of source byte `j div 8` to entry `j`, where that byte has been written and lies
outside the entries. -/
theorem expandBytesLoop_read_bit (dbase src n : Nat) (s : State) {j : Nat} (hj : j < n) {b : Byte}
    (hb : s.buf.read? (src + j / 8) = some b) (ho : src + j / 8 < dbase ∨ dbase + n ≤ src + j / 8) :
    (expandBytesLoop dbase src n s).buf.read? (dbase + j) = some (flagByte (b.getLsbD (j % 8))) := by
  induction n with
  | zero => omega
  | succ n ih =>
    rw [expandBytesLoop, expandBit_buf, Memory.read?_write]
    by_cases h : j = n
    · subst h
      have h1 : (expandBytesLoop dbase src j s).buf.read? (src + j / 8) = some b := by
        rw [expandBytesLoop_read_outside _ _ _ _ (by omega), hb]
      rw [if_pos rfl, State.memRead_written h1]
    · rw [if_neg (by omega), ih (by omega) (by omega)]

theorem expandBytesLoop_wf (dbase src n : Nat) {s : State} (h : s.buf.wf) : (expandBytesLoop dbase src n s).buf.wf := by
  induction n with
  | zero => exact h
  | succ n ih => rw [expandBytesLoop, expandBit_buf]; exact Memory.write_wf _ _ ih

theorem expandBytesLoop_within {size dbase : Nat} (src : Nat) {n : Nat} {s : State} (hb : dbase + n ≤ size)
    (h : s.buf.within size) : (expandBytesLoop dbase src n s).buf.within size := by
  induction n with
  | zero => exact h
  | succ n ih =>
    rw [expandBytesLoop, expandBit_buf]; exact Memory.write_within _ (by omega) (ih (by omega))

/-- Rule R70's loop changes the draw counter alone. -/
theorem packBitsLoop_state (sbase n : Nat) (s : State) : ∃ k, (packBitsLoop sbase n s).2 = { s with freeCount := k } := by
  induction n with
  | zero => exact ⟨s.freeCount, rfl⟩
  | succ n ih =>
    obtain ⟨k, h⟩ := ih
    obtain ⟨k', h'⟩ := State.memRead_state { s with freeCount := k } (sbase + n)
    exact ⟨k', by rw [packBitsLoop, h, h']⟩

/-- Bit `i` of the packed byte: clear at and above the count, and below it set exactly when entry `i`, where it has been
written, is non-zero. -/
theorem packBitsLoop_bit (sbase n : Nat) (s : State) (i : Nat) (hn : n ≤ 8) :
    (n ≤ i → (packBitsLoop sbase n s).1.getLsbD i = false) ∧
    (∀ e, i < n → s.buf.read? (sbase + i) = some e →
      (packBitsLoop sbase n s).1.getLsbD i = decide (e ≠ 0x00#8)) := by
  induction n with
  | zero => exact ⟨fun _ => by simp [packBitsLoop], fun _ h => by omega⟩
  | succ n ih =>
    obtain ⟨ih1, ih2⟩ := ih (by omega)
    obtain ⟨k, hk⟩ := packBitsLoop_state sbase n s
    have hshift : ∀ j, (1#8 <<< n).getLsbD j = decide (j = n) := by
      intro j
      by_cases hj : j = n
      · subst hj; simp; omega
      · simp only [BitVec.getLsbD_shiftLeft, BitVec.getLsbD_one, hj, decide_false]
        by_cases h1 : j < n
        · simp [h1]
        · have : ¬ (j - n = 0) := by omega
          simp [this]
    constructor
    · intro h
      have h0 := ih1 (by omega)
      have h1 : ¬ i = n := by omega
      simp only [packBitsLoop]
      split
      · simp [h0, hshift, h1]
      · exact h0
    · intro e hi he
      by_cases h : i = n
      · subst h
        have hr : ((packBitsLoop sbase i s).2.memRead (sbase + i)).1 = e := by
          rw [hk, State.memRead_written (v := e) (by simpa using he)]
        have h0 := ih1 (Nat.le_refl _)
        simp only [packBitsLoop, hr]
        split
        · rename_i hne; simp [h0, hshift, hne]
        · rename_i hne; simp [h0, hne]
      · have h0 := ih2 e (by omega) he
        simp only [packBitsLoop]
        split
        · simp [h0, hshift, h]
        · exact h0

/-- Each byte of a torn write set draws one choice. -/
@[simp] theorem tornBuf_count (new : Memory) (base n : Nat) (old : Memory × Nat) :
    (tornBuf new base n old).2 = old.2 + n := by
  induction n with
  | zero => rfl
  | succ n ih => simp only [tornBuf, ih]; omega

/-- The BUF a reset leaves outside the write set (rule R108). -/
theorem tornBuf_read_outside (new : Memory) (base n : Nat) (old : Memory × Nat) {a : Nat}
    (h : ¬ (base ≤ a ∧ a < base + n)) : (tornBuf new base n old).1.read? a = old.1.read? a := by
  induction n with
  | zero => rfl
  | succ n ih =>
    simp only [tornBuf]
    split
    · split
      · rw [Memory.read?_write_other _ _ (by omega), ih (by omega)]
      · exact ih (by omega)
    · exact ih (by omega)

/-- Byte `k` of the write set after a reset: new or old by its own choice (rule R108), where the command wrote it. -/
theorem tornBuf_read_inside (new : Memory) (base n : Nat) (old : Memory × Nat) {k : Nat} (hk : k < n) {v : Byte}
    (hv : new.read? (base + k) = some v) :
    (tornBuf new base n old).1.read? (base + k) =
      if Config.freeChoice (old.2 + k) then some v else old.1.read? (base + k) := by
  induction n with
  | zero => omega
  | succ n ih =>
    simp only [tornBuf, tornBuf_count]
    by_cases h : k = n
    · subst h
      split
      · simp [hv]
      · exact tornBuf_read_outside _ _ _ _ (by omega)
    · split
      · split
        · rw [Memory.read?_write_other _ _ (by omega), ih (by omega)]
        · exact ih (by omega)
      · exact ih (by omega)

theorem tornBuf_wf (new : Memory) (base n : Nat) {old : Memory × Nat} (h : old.1.wf) : (tornBuf new base n old).1.wf := by
  induction n with
  | zero => exact h
  | succ n ih =>
    simp only [tornBuf]
    split
    · split
      · exact Memory.write_wf _ _ ih
      · exact ih
    · exact ih

theorem tornBuf_within {size base : Nat} (new : Memory) {n : Nat} {old : Memory × Nat} (hn : new.within size)
    (h : old.1.within size) : (tornBuf new base n old).1.within size := by
  induction n with
  | zero => exact h
  | succ n ih =>
    simp only [tornBuf]
    split
    · split
      · rename_i v hv; exact Memory.write_within _ (hn _ (findKey_mem hv)) ih
      · exact ih
    · exact ih

end Sys2Proof.Machine
end

