-- ==== Sys2Proof/Laws/Exec.lean ====
section
/-! SUPPORT. What running a command can do, said once: the state it leaves is the state it ran in with BUF, the draw
counter and the result registers changed, completed with a code; and how the decoder answers. -/

namespace Sys2Proof.Machine

/-- A state with the four fields a command may change besides STATUS. -/
def State.withResults (m : Memory) (n : Nat) (r0 r1 : Word) (s : State) : State :=
  { s with buf := m, freeCount := n, res0 := r0, res1 := r1 }

/-- What a command can leave: `m`, `n`, `r0`, `r1` and `c` such that the next state is `s` with them, completed with `c`;
on a code other than OK, BUF and the results are those of `s`; and BUF keeps its form and its bound. -/
structure ExecShape (s t : State) (m : Memory) (n : Nat) (r0 r1 : Word) (c : ResultCode) : Prop where
  state : t = (s.withResults m n r0 r1).complete c
  failed : c ≠ .ok → m = s.buf ∧ r0 = s.res0 ∧ r1 = s.res1
  wf : s.buf.wf → m.wf
  within : s.buf.within s.config.bufSize → m.within s.config.bufSize

/-- A plain completion has that shape. -/
theorem execShape_complete (s : State) (c : ResultCode) :
    ExecShape s (s.complete c) s.buf s.freeCount s.res0 s.res1 c := ⟨rfl, fun _ => ⟨rfl, rfl, rfl⟩, id, id⟩

/-- A successful command that changes no BUF byte has that shape. -/
theorem execShape_results (s : State) (n : Nat) (r0 r1 : Word) :
    ExecShape s ((s.withResults s.buf n r0 r1).complete .ok) s.buf n r0 r1 .ok := ⟨rfl, fun h => absurd rfl h, id, id⟩

theorem execExpandByte_shape (s : State) :
    ∃ t m n r0 r1 c, execExpandByte s = .next t ∧ ExecShape s t m n r0 r1 c := by
  simp only [execExpandByte]
  split
  · exact ⟨_, _, _, _, _, _, rfl, execShape_complete s _⟩
  · split
    · exact ⟨_, _, _, _, _, _, rfl, execShape_complete s _⟩
    · rename_i _ h
      have hr := rangeInBuf_iff.1 (by simpa using h)
      refine ⟨_, (expandByteLoop (bufAddr s.oplA s.oplB) s.oplC 8 s).buf, s.freeCount, s.res0, s.res1, .ok, rfl, ?_,
        fun h => absurd rfl h, expandByteLoop_wf _ _ _, expandByteLoop_within _ (by omega)⟩
      rw [expandByteLoop_state]; rfl

theorem execExpandBytes_shape (s : State) :
    ∃ t m n r0 r1 c, execExpandBytes s = .next t ∧ ExecShape s t m n r0 r1 c := by
  simp only [execExpandBytes]
  split
  · exact ⟨_, _, _, _, _, _, rfl, execShape_complete s _⟩
  · split
    · exact ⟨_, _, _, _, _, _, rfl, execShape_complete s _⟩
    · split
      · exact ⟨_, _, _, _, _, _, rfl, execShape_complete s _⟩
      · rename_i h0 h _
        have hr : rangeInBuf s.config.bufSize (bufAddr s.oplA s.oplB) s.oplC.toNat = true := by
          simp only [Bool.or_eq_true, Bool.not_eq_true', not_or, Bool.not_eq_false] at h; exact h.1
        have hr' := rangeInBuf_iff.1 hr
        obtain ⟨m, k, e⟩ := expandBytesLoop_state (bufAddr s.oplA s.oplB) s.oplD.toNat s.oplC.toNat s
        have hm : (expandBytesLoop (bufAddr s.oplA s.oplB) s.oplD.toNat s.oplC.toNat s).buf = m := by rw [e]
        refine ⟨_, m, k, s.res0, s.res1, .ok, rfl, by rw [e]; rfl, fun h => absurd rfl h, ?_, ?_⟩
        · rw [← hm]; exact expandBytesLoop_wf _ _ _
        · rw [← hm]; exact expandBytesLoop_within _ (by omega)

theorem execPackBits_shape (s : State) :
    ∃ t m n r0 r1 c, execPackBits s = .next t ∧ ExecShape s t m n r0 r1 c := by
  simp only [execPackBits]
  split
  · exact ⟨_, _, _, _, _, _, rfl, execShape_complete s _⟩
  · split
    · exact ⟨_, _, _, _, _, _, rfl, execShape_complete s _⟩
    · obtain ⟨k, e⟩ := packBitsLoop_state (bufAddr s.oplA s.oplB) s.oplC.toNat s
      refine ⟨_, s.buf, k, (packBitsLoop (bufAddr s.oplA s.oplB) s.oplC.toNat s).1.setWidth 32, s.res1, .ok, rfl, ?_,
        fun h => absurd rfl h, id, id⟩
      rw [e]; rfl

theorem execHexToByte_shape (s : State) :
    ∃ t m n r0 r1 c, execHexToByte s = .next t ∧ ExecShape s t m n r0 r1 c := by
  simp only [execHexToByte]
  obtain ⟨n0, e0⟩ := s.memRead_state (bufAddr s.oplA s.oplB)
  obtain ⟨n1, e1⟩ := (s.memRead (bufAddr s.oplA s.oplB)).2.memRead_state (bufAddr s.oplA s.oplB + 1)
  rw [e0] at e1
  split
  · exact ⟨_, _, _, _, _, _, rfl, execShape_complete s _⟩
  · split
    · exact ⟨_, s.buf, n1, s.res0, s.res1, .errHexChar, rfl, by rw [e0, e1]; rfl, fun _ => ⟨rfl, rfl, rfl⟩, id, id⟩
    · refine ⟨_, s.buf, n1, (hexVal (s.memRead (bufAddr s.oplA s.oplB)).1 ++
          hexVal ((s.memRead (bufAddr s.oplA s.oplB)).2.memRead (bufAddr s.oplA s.oplB + 1)).1).setWidth 32,
        s.oplB + 2#32, .ok, rfl, ?_, fun h => absurd rfl h, id, id⟩
      generalize (hexVal _ ++ hexVal _).setWidth 32 = w
      rw [e0, e1]; rfl

/-- Every command leaves a next state of that shape, in every state. -/
theorem exec_shape (i : Instr) (s : State) : ∃ t m n r0 r1 c, exec i s = .next t ∧ ExecShape s t m n r0 r1 c := by
  cases i
  case expandByte => exact execExpandByte_shape s
  case expandBytes => exact execExpandBytes_shape s
  case packBits => exact execPackBits_shape s
  case hexToByte => exact execHexToByte_shape s
  case encodeFloatAbcd => exact ⟨_, _, _, _, _, _, rfl, execShape_results s s.freeCount _ _⟩
  case encodeFloatDcba => exact ⟨_, _, _, _, _, _, rfl, execShape_results s s.freeCount _ _⟩
  case bswap32 => exact ⟨_, _, _, _, _, _, rfl, execShape_results s s.freeCount _ s.res1⟩
  case decodeFloatAbcd =>
    simp only [exec, execDecodeFloatAbcd]
    split
    · exact ⟨_, _, _, _, _, _, rfl, execShape_complete s _⟩
    · exact ⟨_, _, _, _, _, _, rfl, execShape_results s s.freeCount _ s.res1⟩
  case decodeFloatDcba =>
    simp only [exec, execDecodeFloatDcba]
    split
    · exact ⟨_, _, _, _, _, _, rfl, execShape_complete s _⟩
    · exact ⟨_, _, _, _, _, _, rfl, execShape_results s s.freeCount _ s.res1⟩
  case nibbleToHex =>
    simp only [exec, execNibbleToHex]
    split
    · exact ⟨_, _, _, _, _, _, rfl, execShape_complete s _⟩
    · exact ⟨_, _, _, _, _, _, rfl, execShape_results s s.freeCount _ s.res1⟩
  case byteToHex =>
    simp only [exec, execByteToHex]
    split
    · exact ⟨_, _, _, _, _, _, rfl, execShape_complete s _⟩
    · exact ⟨_, _, _, _, _, _, rfl, execShape_results s s.freeCount _ _⟩

end Sys2Proof.Machine
end

