-- ==== Sys2Proof/Laws/PerInstr.lean ====
section
/-! SUPPORT. Statements about every instruction as syntax, one lemma for each constructor. -/

namespace Sys2Proof.Laws.OpcodeAssigned

/-- Rules R53, R55, R58: the command word has RSV = 0 and an assigned OP, and its table word decodes to the command. -/
def Statement (i : Instr) : Prop :=
  rsvField (encode i) = 0#28 ∧ 0x1 ≤ (opField (encode i)).toNat ∧ (opField (encode i)).toNat ≤ 0xB ∧
    decodeTableWord 32 (encode i).toNat = some i

theorem expandByte : Statement .expandByte := by unfold Statement; decide
theorem expandBytes : Statement .expandBytes := by unfold Statement; decide
theorem packBits : Statement .packBits := by unfold Statement; decide
theorem decodeFloatAbcd : Statement .decodeFloatAbcd := by unfold Statement; decide
theorem decodeFloatDcba : Statement .decodeFloatDcba := by unfold Statement; decide
theorem encodeFloatAbcd : Statement .encodeFloatAbcd := by unfold Statement; decide
theorem encodeFloatDcba : Statement .encodeFloatDcba := by unfold Statement; decide
theorem bswap32 : Statement .bswap32 := by unfold Statement; decide
theorem nibbleToHex : Statement .nibbleToHex := by unfold Statement; decide
theorem byteToHex : Statement .byteToHex := by unfold Statement; decide
theorem hexToByte : Statement .hexToByte := by unfold Statement; decide

end Sys2Proof.Laws.OpcodeAssigned
end

