-- ==== Sys2Proof/Laws/Step.lean ====
section
/-! SUPPORT. What a host line and a step can do, said once: if it answers a next state, one of these cases holds. -/

namespace Sys2Proof.Machine

@[simp] theorem State.hostBindInto_none (v : Nat) (s : State) : s.hostBindInto none v = s := rfl
@[simp] theorem State.hostBindInto_some (x v : Nat) (s : State) : s.hostBindInto (some x) v = s.hostBind x v := rfl

/-- Binding a read value moves only the host. -/
theorem State.hostBindInto_state (into : Option Nat) (v : Nat) (s : State) :
    ∃ g, s.hostBindInto into v = { s with host := g } := by
  cases into with
  | none => exact ⟨s.host, rfl⟩
  | some x => exact ⟨_, rfl⟩

/-- The access the block decodes reaches the register at that offset (rules R18, R52). -/
theorem decodeAccess_some {width off : Nat} {r : Reg} (h : decodeAccess width off = some r) :
    width = 32 ∧ off = r.offset := by
  unfold decodeAccess at h
  split at h
  · rename_i hw
    refine ⟨hw, ?_⟩
    split at h <;> first | (injection h with h; subst h; rfl) | cases h
  · cases h

/-- `decodeAccess` and the well-formedness check `accessDecoded` decode the same accesses (rule R52). -/
theorem decodeAccess_none_iff (width off : Nat) : decodeAccess width off = none ↔ accessDecoded width off = false := by
  by_cases hw : width = 32
  · subst hw
    by_cases hlt : off < 0x20
    · interval_cases off <;> simp [decodeAccess, accessDecoded]
    · have : decodeAccess 32 off = none := by
        simp only [decodeAccess, if_true]
        split <;> first | rfl | omega
      simp [this, accessDecoded, hlt]
  · simp [decodeAccess, accessDecoded, hw]

/-- A label is found exactly when the script has it. -/
theorem findLabel_eq_none_iff (m : Nat) (script : List Line) (k : Nat) :
    findLabel m script k = none ↔ .label m ∉ script := by
  induction script generalizing k with
  | nil => simp [findLabel]
  | cons l rest ih =>
    cases l
    case label n =>
      by_cases h : n = m
      · simp [findLabel, h]
      · simp [findLabel, h, ih, Ne.symm h]
    all_goals simp [findLabel, ih]

/-- What a host line can leave. -/
inductive HostEffect (l : Line) (s : State) : State → Prop
  /-- Only the host moves. -/
  | host (g : HostAgent) : HostEffect l s { s with host := g }
  /-- A register write of the word the access carries; the draw counter may advance. -/
  | write (r : Reg) (e : Expr) (w : Word) (n : Nat) (g : HostAgent) (hl : l = .regWrite 32 r.offset e)
      (hw : s.evalHost e < 2 ^ 32 → w = BitVec.ofNat 32 (s.evalHost e)) :
      HostEffect l s { regWrite r w { s with freeCount := n } with host := g }
  /-- A BUF byte write, inside BUF, while BUSY = 0; the draw counter may advance. -/
  | bufWrite (addr e : Expr) (v : Byte) (n : Nat) (g : HostAgent) (hl : l = .bufWrite addr e) (hb : s.busy = false)
      (ha : s.evalHost addr < s.config.bufSize) :
      HostEffect l s { s.memWrite (s.evalHost addr) v with freeCount := n, host := g }
  /-- A BUF byte read: the draw counter may advance. -/
  | bufRead (n : Nat) (g : HostAgent) (hb : s.busy = false) : HostEffect l s { s with freeCount := n, host := g }
  /-- A host-protocol fault is marked. -/
  | mark (f : Fault) (hm : misuseFault l s = some f) : HostEffect l s (s.markFault f)

theorem runGoto_effect {l : Line} {k : Nat} {s t : State} (h : runGoto k s = .next t) : HostEffect l s t := by
  unfold runGoto at h
  split at h
  · injection h with h; subst h; exact .host _
  · cases h

/-- A host line that answers a next state has one of those effects. -/
theorem runLine_effect {l : Line} {s t : State} (h : runLine l s = .next t) : HostEffect l s t := by
  cases l with
  | regWrite width off e =>
    simp only [runLine, runRegWrite] at h
    split at h
    · cases h
    · rename_i r hr
      obtain ⟨rfl, rfl⟩ := decodeAccess_some hr
      obtain ⟨n, hn⟩ := s.busWord_state (s.evalHost e)
      rw [hn] at h
      injection h with h; subst h
      exact .write r e _ n _ rfl (fun hv => by rw [State.busWord_fits hv])
  | regRead width off into =>
    simp only [runLine, runRegRead] at h
    split at h
    · cases h
    · rename_i r hr
      obtain ⟨g, hg⟩ := State.hostBindInto_state into (regRead r s).toNat (s.hostNote (.reg off (regRead r s)))
      rw [hg] at h; injection h with h; subst h; exact .host _
  | wait =>
    simp only [runLine, runWait] at h
    split at h <;> (injection h with h; subst h; exact .host _)
  | bufWrite addr b =>
    simp only [runLine, runBufWrite] at h
    split at h
    · rename_i hb
      injection h with h; subst h; exact .mark _ (by simp [misuseFault, misuseOfBuf, hb])
    · rename_i hb
      split at h
      · rename_i ha
        injection h with h; subst h; exact .mark _ (by simp [misuseFault, misuseOfBuf, hb, ha])
      · rename_i ha
        obtain ⟨n, hn⟩ := s.busByte_state (s.evalHost b)
        rw [hn] at h
        injection h with h; subst h
        exact .bufWrite addr b _ n _ rfl (by simpa using hb) (by omega)
  | bufRead addr into =>
    simp only [runLine, runBufRead] at h
    split at h
    · rename_i hb
      injection h with h; subst h; exact .mark _ (by simp [misuseFault, misuseOfBuf, hb])
    · rename_i hb
      split at h
      · rename_i ha
        injection h with h; subst h; exact .mark _ (by simp [misuseFault, misuseOfBuf, hb, ha])
      · obtain ⟨n, hn⟩ := s.memRead_state (s.evalHost addr)
        obtain ⟨g, hg⟩ := State.hostBindInto_state into (s.memRead (s.evalHost addr)).1.toNat
          ((s.memRead (s.evalHost addr)).2.hostNote (.buf (s.evalHost addr) (s.memRead (s.evalHost addr)).1))
        rw [hg] at h; injection h with h; subst h
        rw [hn]; exact .bufRead _ _ (by simpa using hb)
  | assign x e => simp only [runLine] at h; injection h with h; subst h; exact .host _
  | label m => simp only [runLine] at h; injection h with h; subst h; exact .host _
  | branch cond m =>
    simp only [runLine] at h
    split at h
    · injection h with h; subst h; exact .host _
    · exact runGoto_effect h
  | goto m => exact runGoto_effect h

/-- An access that reaches a register is one the check accepts. -/
theorem accessDecoded_of_some {width off : Nat} {r : Reg} (h : decodeAccess width off = some r) :
    accessDecoded width off = true := by
  by_contra hn
  rw [(decodeAccess_none_iff width off).2 (by simpa using hn)] at h; cases h

/-- A jump is refused exactly when the script does not have the label. -/
theorem runGoto_refused_iff {m : Nat} {s : State} {r : Refusal} :
    runGoto m s = .refused r ↔ .label m ∉ s.host.script ∧ .scriptLabelUnknown = r := by
  rw [← findLabel_eq_none_iff m s.host.script 0]
  unfold runGoto
  cases findLabel m s.host.script 0 <;> simp [eq_comm]

/-- A host line is refused exactly for its own misuse. -/
theorem runLine_refused_iff {l : Line} {s : State} {r : Refusal} :
    runLine l s = .refused r ↔ misuseRefusal l s = some r := by
  cases l with
  | regWrite width off e =>
    simp only [runLine, runRegWrite, misuseRefusal]
    cases h : decodeAccess width off with
    | none => simp [(decodeAccess_none_iff width off).1 h]
    | some x => simp [accessDecoded_of_some h]
  | regRead width off into =>
    simp only [runLine, runRegRead, misuseRefusal]
    cases h : decodeAccess width off with
    | none => simp [(decodeAccess_none_iff width off).1 h]
    | some x => simp [accessDecoded_of_some h]
  | wait => simp [runLine, runWait, misuseRefusal]
  | bufWrite addr b =>
    simp only [runLine, runBufWrite, misuseRefusal]
    repeat' split
    all_goals simp
  | bufRead addr into =>
    simp only [runLine, runBufRead, misuseRefusal]
    repeat' split
    all_goals simp
  | assign x e => simp [runLine, misuseRefusal]
  | label m => simp [runLine, misuseRefusal]
  | branch cond m =>
    by_cases h0 : s.evalHost cond = 0
    · simp [runLine, misuseRefusal, h0]
    · simp [runLine, misuseRefusal, h0, runGoto_refused_iff]
  | goto m => simp [runLine, misuseRefusal, runGoto_refused_iff]

/-- A host line that is a host-protocol fault sets the mark and does nothing else. -/
theorem runLine_marks {l : Line} {s : State} {f : Fault} (h : misuseFault l s = some f) :
    runLine l s = .next (s.markFault f) := by
  cases l <;> simp only [misuseFault, reduceCtorEq] at h
  all_goals
    unfold misuseOfBuf at h
    simp only [runLine, runBufWrite, runBufRead]
    split at h
    · injection h with h; subst h; rename_i hb; simp [hb]
    · split at h
      · injection h with h; subst h; rename_i hb ha; simp [hb, ha]
      · cases h

/-- The fault mark after a host line: the line's own misuse, or what it was. -/
theorem runLine_hostFault {l : Line} {s t : State} (h : runLine l s = .next t) :
    t.hostFault = (misuseFault l s).or s.hostFault := by
  cases hm : misuseFault l s with
  | some f => rw [runLine_marks hm] at h; injection h with h; subst h; rfl
  | none =>
    cases runLine_effect h with
    | write r e w n g hl hw =>
      cases r <;> try rfl
      simp only [regWrite, writeCmd]; split <;> rfl
    | mark f h' => rw [hm] at h'; cases h'
    | _ => rfl

/-- Taking a turn off the schedule changes nothing else. -/
theorem nextTurn_state (s : State) : ∃ ts, (nextTurn s).2 = s.withSchedule ts := by
  unfold nextTurn
  split
  · exact ⟨_, rfl⟩
  · exact ⟨s.schedule, rfl⟩

/-- What a step that answers a next state did: whose turn it was, and what that turn does. `u` is the state with the turn
taken off the schedule. -/
inductive StepEffect (s u t : State) : Prop
  /-- A unit turn with BUSY = 0 passes. -/
  | unitIdle (ht : (nextTurn s).1 = .unit) (hb : u.busy = false) (e : t = u)
  /-- The unit runs the latched command. -/
  | unitRuns (ht : (nextTurn s).1 = .unit) (hb : u.busy = true) (i : Instr) (hd : decode u.cmdl = .ok i)
      (e : exec i u = .next t)
  /-- The unit completes an illegal word. -/
  | unitIllegal (ht : (nextTurn s).1 = .unit) (hb : u.busy = true) (r : IllegalWord) (hd : decode u.cmdl = .error r)
      (e : t = u.complete .errIllegal)
  /-- The host's script has finished. -/
  | hostDone (ht : (nextTurn s).1 = .host) (hl : u.hostLine? = none) (e : t = u)
  /-- The host runs its next line. -/
  | hostRuns (ht : (nextTurn s).1 = .host) (l : Line) (hl : u.hostLine? = some l) (e : runLine l u = .next t)
  /-- Reset arrives. -/
  | reset (ht : (nextTurn s).1 = .reset) (e : t = resetEvent u)

/-- A step that answers a next state starts unmarked and takes one turn. -/
theorem step_effect {s t : State} (h : step s = .next t) :
    s.hostFault = none ∧ ∃ u ts, u = s.withSchedule ts ∧ StepEffect s u t := by
  unfold step agentStep at h
  split at h
  · cases h
  · rename_i hf
    obtain ⟨ts, hs⟩ := nextTurn_state s
    refine ⟨hf, (nextTurn s).2, ts, hs, ?_⟩
    generalize (nextTurn s).2 = u at h
    cases ht : (nextTurn s).1 <;> simp only [ht, takeTurn] at h
    · unfold unitTurn at h
      split at h
      · rename_i hb
        unfold unitStep at h
        split at h
        · rename_i i hd; exact .unitRuns ht hb i hd h
        · rename_i r hd; injection h with h; exact .unitIllegal ht hb r hd h.symm
      · rename_i hb; injection h with h; exact .unitIdle ht (by simpa using hb) h.symm
    · unfold hostTurn at h
      split at h
      · rename_i l hl; exact .hostRuns ht l hl h
      · rename_i hl; injection h with h; exact .hostDone ht hl h.symm
    · injection h with h; exact .reset ht h.symm

@[simp] theorem runSteps_zero (s : State) : runSteps 0 s = .next s := rfl

/-- One step, then the rest. -/
theorem runSteps_succ (k : Nat) (s : State) :
    runSteps (k + 1) s =
      match step s with
      | .next t => runSteps k t
      | .fault f => .fault f
      | .refused r => .refused r := rfl

theorem runSteps_succ_next {k : Nat} {s t : State} (h : step s = .next t) : runSteps (k + 1) s = runSteps k t := by
  rw [runSteps_succ, h]

end Sys2Proof.Machine
end

