-- ==== Sys2Proof/Tests/Slice0.lean ====
section
/-! SUPPORT. The model's own tests: ill-formed terms the checks refuse, command words written out from rules R53 and R55,
one step on small states against the vectors of 95_test_vectors.md (each test names its vector), and for every statement
with hypotheses a concrete case that meets them, clause by clause. -/

namespace Sys2Proof.Tests

open Sys2Proof Sys2Proof.Machine

/-! Ill-formed terms (rules R52, R61, R62). -/

theorem test_wf_register_literal : Line.wellFormed [] (.regWrite 32 0x00 (.lit 0x100000000)) = false := by decide
theorem test_wf_access_width : Line.wellFormed [] (.regWrite 16 0x00 (.lit 0)) = false := by decide
theorem test_wf_access_offset : Line.wellFormed [] (.regRead 32 0x20 none) = false := by decide
theorem test_wf_access_misaligned : Line.wellFormed [] (.regRead 32 0x02 none) = false := by decide
theorem test_wf_byte_literal : Line.wellFormed [] (.bufWrite (.lit 0) (.lit 0x100)) = false := by decide
theorem test_wf_branch_label : scriptWellFormed [.label 1, .branch (.lit 1) 2] = false := by decide
theorem test_wf_goto_label : scriptWellFormed [.goto 1] = false := by decide
theorem test_wf_label_twice : scriptWellFormed [.label 1, .wait, .label 1] = false := by decide
theorem test_wf_pseudo_literal :
    Pseudo.wellFormed (.packBitsToByte (.lit 0) (.lit 0) (.lit 0x100000000)) = false := by decide
theorem test_wf_accepts :
    scriptWellFormed [.label 1, .regWrite 32 0x1C (.lit 0xFFFFFFFF), .bufWrite (.lit 63) (.lit 0xFF), .goto 1] = true := by
  decide

/-! Decoding: each word is 28 zero bits (RSV) and the OP of rule R55, written out. -/

theorem test_decode_expandByte : decode 0b0000_0000_0000_0000_0000_0000_0000_0001#32 = .ok .expandByte := rfl
theorem test_decode_expandBytes : decode 0b0000_0000_0000_0000_0000_0000_0000_0010#32 = .ok .expandBytes := rfl
theorem test_decode_packBits : decode 0b0000_0000_0000_0000_0000_0000_0000_0011#32 = .ok .packBits := rfl
theorem test_decode_decodeFloatAbcd : decode 0b0000_0000_0000_0000_0000_0000_0000_0100#32 = .ok .decodeFloatAbcd := rfl
theorem test_decode_decodeFloatDcba : decode 0b0000_0000_0000_0000_0000_0000_0000_0101#32 = .ok .decodeFloatDcba := rfl
theorem test_decode_encodeFloatAbcd : decode 0b0000_0000_0000_0000_0000_0000_0000_0110#32 = .ok .encodeFloatAbcd := rfl
theorem test_decode_encodeFloatDcba : decode 0b0000_0000_0000_0000_0000_0000_0000_0111#32 = .ok .encodeFloatDcba := rfl
theorem test_decode_bswap32 : decode 0b0000_0000_0000_0000_0000_0000_0000_1000#32 = .ok .bswap32 := rfl
theorem test_decode_nibbleToHex : decode 0b0000_0000_0000_0000_0000_0000_0000_1001#32 = .ok .nibbleToHex := rfl
theorem test_decode_byteToHex : decode 0b0000_0000_0000_0000_0000_0000_0000_1010#32 = .ok .byteToHex := rfl
theorem test_decode_hexToByte : decode 0b0000_0000_0000_0000_0000_0000_0000_1011#32 = .ok .hexToByte := rfl

/-- Rule R59, vectors V82-V85. -/
theorem test_decode_illegal :
    decode 0x00000000#32 = .error .opcodeUnassigned ∧ decode 0x0000000C#32 = .error .opcodeUnassigned ∧
      decode 0x0000000F#32 = .error .opcodeUnassigned ∧ decode 0x00000011#32 = .error .reservedBitsSet ∧
      decode 0x80000003#32 = .error .reservedBitsSet := ⟨rfl, rfl, rfl, rfl, rfl⟩

theorem test_decodeTableWord :
    decodeTableWord 32 0xB = some .hexToByte ∧ decodeTableWord 32 0xC = none ∧ decodeTableWord 32 (2 ^ 32 + 1) = none := by
  decide

/-! One step of one command, against 95_test_vectors.md (BUF_SIZE = 64). -/

/-- An accepted command's state: operands latched, BUF given, nothing else changed from reset. -/
def latched (a b c d : Word) (buf : Memory) : State :=
  { State.reset with oplA := a, oplB := b, oplC := c, oplD := d, buf := buf, busy := true }

/-- The state after a step, if there is one. -/
def nextOf (o : Host.Outcome State Fault Refusal) : Option State :=
  match o with
  | .next t => some t
  | .fault _ => none
  | .refused _ => none

/-- The state after the one step that runs the command word `w`. -/
def ran (w : Nat) (s : State) : Option State := nextOf (step (s.withFetchWord 32 w))

/-- BUF bytes from an address up. -/
def bytesAt (base : Nat) (vs : List Byte) : Memory := (List.range' base vs.length).zip vs

/-- STATUS, RES0, RES1 after the command, as the host reads them. -/
def seen (o : Option State) : Option (Word × Word × Word) := o.map (fun t => (statusWord t, t.res0, t.res1))

/-- V4. -/
theorem test_expandByte : (ran 0x1 (latched 0 0 0xA5 0 [])).map (·.buf) = some (bytesAt 0 [1, 0, 1, 0, 0, 1, 0, 1]) := by
  decide

/-- V5, V6, V7, V8, V9: both errors, their order, and the last address allowed. -/
theorem test_expandByte_bounds :
    seen (ran 0x1 (latched 0 0 0x100 0 [])) = some (0x22, 0, 0) ∧
      (ran 0x1 (latched 50 6 0x01 0 [])).map (·.buf) = some (bytesAt 56 [1, 0, 0, 0, 0, 0, 0, 0]) ∧
      seen (ran 0x1 (latched 50 7 0x01 0 [])) = some (0x24, 0, 0) ∧
      seen (ran 0x1 (latched 60 0 0x100 0 [])) = some (0x22, 0, 0) ∧
      seen (ran 0x1 (latched 0xFFFFFFFF 1 0x01 0 [])) = some (0x24, 0, 0) := by decide

/-- V12. -/
theorem test_expandBytes :
    (ran 0x2 (latched 16 2 12 0 (bytesAt 0 [0xA5, 0x3C]))).map (·.buf) =
      some (bytesAt 0 [0xA5, 0x3C] ++ bytesAt 18 [1, 0, 1, 0, 0, 1, 0, 1, 0, 0, 1, 1]) := by decide

/-- V10, V14, V15, V16, V17, V18: the count of 0, both errors, their order, and ranges that only touch. -/
theorem test_expandBytes_bounds :
    seen (ran 0x2 (latched 0xFFFFFFFF 0xFFFFFFFF 0 0xFFFFFFFF [])) = some (0x20, 0, 0) ∧
      seen (ran 0x2 (latched 0 0 8 0 (bytesAt 0 [0x5A]))) = some (0x25, 0, 0) ∧
      (ran 0x2 (latched 1 0 8 0 (bytesAt 0 [0x03]))).map (·.buf) = some (bytesAt 0 [3, 1, 1, 0, 0, 0, 0, 0, 0]) ∧
      seen (ran 0x2 (latched 0 0 9 63 [])) = some (0x24, 0, 0) ∧
      seen (ran 0x2 (latched 0 0 16 8 [])) = some (0x25, 0, 0) ∧
      seen (ran 0x2 (latched 60 0 8 60 [])) = some (0x24, 0, 0) := by decide

/-- V22, V25: an entry of 2 is a set flag, and the index. -/
theorem test_packBits :
    seen (ran 0x3 (latched 0 0 3 0 (bytesAt 0 [0x01, 0x00, 0x02]))) = some (0x20, 5, 0) ∧
      seen (ran 0x3 (latched 0 4 4 0 (bytesAt 4 [0, 1, 1, 0]))) = some (0x20, 6, 0) := by decide

/-- V24, V26, V27, V28, V29: both errors, their order, the last address allowed, and the count of 0. -/
theorem test_packBits_bounds :
    seen (ran 0x3 (latched 0 0 9 0 [])) = some (0x23, 0, 0) ∧
      seen (ran 0x3 (latched 60 0 5 0 [])) = some (0x24, 0, 0) ∧
      seen (ran 0x3 (latched 60 0 4 0 (bytesAt 60 [1, 1, 1, 1]))) = some (0x20, 0xF, 0) ∧
      seen (ran 0x3 (latched 0xFFFFFFFF 0 9 0 [])) = some (0x23, 0, 0) ∧
      seen (ran 0x3 (latched 0xFFFFFFFF 0xFFFFFFFF 0 0 [])) = some (0x20, 0, 0) := by decide

/-- V32, V33. -/
theorem test_decodeFloatAbcd :
    seen (ran 0x4 (latched 0x5678 0x1234 0 0 [])) = some (0x20, 0x12345678, 0) ∧
      seen (ran 0x4 (latched 0x0000 0x10000 0 0 [])) = some (0x22, 0, 0) := by decide

/-- V36, V37. -/
theorem test_decodeFloatDcba :
    seen (ran 0x5 (latched 0x3412 0x7856 0 0 [])) = some (0x20, 0x12345678, 0) ∧
      seen (ran 0x5 (latched 0x10000 0x0000 0 0 [])) = some (0x22, 0, 0) := by decide

/-- V41. -/
theorem test_encodeFloatAbcd : seen (ran 0x6 (latched 0x7FC00001 0 0 0 [])) = some (0x20, 0x0001, 0x7FC0) := by decide

/-- V45. -/
theorem test_encodeFloatDcba : seen (ran 0x7 (latched 0x12345678 0 0 0 [])) = some (0x20, 0x3412, 0x7856) := by decide

/-- V49. -/
theorem test_bswap32 : seen (ran 0x8 (latched 0x12345678 0 0 0 [])) = some (0x20, 0x78563412, 0) := by decide

/-- V57, V58, V59, V60. -/
theorem test_nibbleToHex :
    seen (ran 0x9 (latched 0x9 0 0 0 [])) = some (0x20, 0x39, 0) ∧
      seen (ran 0x9 (latched 0xA 0 0 0 [])) = some (0x20, 0x41, 0) ∧
      seen (ran 0x9 (latched 0xF 0 0 0 [])) = some (0x20, 0x46, 0) ∧
      seen (ran 0x9 (latched 0x10 0 0 0 [])) = some (0x22, 0, 0) := by decide

/-- V64, V68. -/
theorem test_byteToHex :
    seen (ran 0xA (latched 0x5A 0 0 0 [])) = some (0x20, 0x35, 0x41) ∧
      seen (ran 0xA (latched 0x100 0 0 0 [])) = some (0x22, 0, 0) := by decide

/-- V74: RES1 is the position plus 2, not the address plus 2. -/
theorem test_hexToByte : seen (ran 0xB (latched 32 5 0 0 (bytesAt 37 [0x33, 0x43]))) = some (0x20, 0x3C, 7) := by decide

/-- V75-V81: a character outside the alphabet at each of its four edges, and the two address errors. -/
theorem test_hexToByte_errors :
    seen (ran 0xB (latched 0 0 0 0 (bytesAt 0 [0x61, 0x66]))) = some (0x26, 0, 0) ∧
      seen (ran 0xB (latched 0 0 0 0 (bytesAt 0 [0x30, 0x3A]))) = some (0x26, 0, 0) ∧
      seen (ran 0xB (latched 0 0 0 0 (bytesAt 0 [0x47, 0x30]))) = some (0x26, 0, 0) ∧
      seen (ran 0xB (latched 0 0 0 0 (bytesAt 0 [0x40, 0x31]))) = some (0x26, 0, 0) ∧
      seen (ran 0xB (latched 0 0 0 0 (bytesAt 0 [0x2F, 0x30]))) = some (0x26, 0, 0) ∧
      seen (ran 0xB (latched 62 1 0 0 [])) = some (0x24, 0, 0) ∧
      seen (ran 0xB (latched 63 0 0 0 (bytesAt 63 [0x7A]))) = some (0x24, 0, 0) := by decide

/-! The interface, the host's lines, reset. -/

/-- V82, V84: an illegal word completes with ERR_ILLEGAL and is what CMD reads. -/
theorem test_illegal_word :
    seen (nextOf (unitStep (regWrite .cmd 0x0 State.reset))) = some (0x21, 0, 0) ∧
      (nextOf (unitStep (regWrite .cmd 0x11 State.reset))).map (regRead .cmd) = some 0x11 := by decide

/-- V88: OPA rewritten after acceptance does not matter. -/
theorem test_latched_operand :
    (nextOf (unitStep (regWrite .opa 0 (regWrite .cmd 0x8 (regWrite .opa 0x12345678 State.reset))))).map (regRead .res0) =
      some 0x78563412 := by decide

/-- V89 (b), V90, V91: a dropped command, and the two STATUS writes. -/
theorem test_dropped_command :
    (nextOf (unitStep (regWrite .cmd 0x6 (regWrite .cmd 0x8 State.reset)))).map
        (fun t => (regRead .status t, regRead .cmd t, regRead .status (regWrite .status 0xFFFFFFBF t),
          regRead .status (regWrite .status 0x40 t))) = some (0x60, 0x8, 0x60, 0x20) := by decide

/-- V92: a write to RES0 is ignored. -/
theorem test_res0_write : regRead .res0 (regWrite .res0 0x99 { State.reset with res0 := 5 }) = 5 := by decide

/-- A state whose host is about to run `script` from its start, with the given turns to come. -/
def hosting (script : List Line) (turns : List Turn) (busy : Bool) : State :=
  { State.reset with host := { HostAgent.idle with script := script }, schedule := turns, busy := busy }

/-- V94: undecoded accesses are refused. -/
theorem test_undecoded_access :
    step (hosting [.regRead 32 0x20 none] [] false) = .refused .hostAccessUnsupported ∧
      step (hosting [.regWrite 16 0x00 (.lit 0)] [] false) = .refused .hostAccessUnsupported := ⟨rfl, rfl⟩

/-- V95: a host BUF write is marked while BUSY = 1 and an ordinary write otherwise. -/
theorem test_buf_hazard :
    (nextOf (step (hosting [.bufWrite (.lit 0) (.lit 0x55)] [.host] true))).map (fun t => (t.hostFault, t.buf)) =
        some (some .hostBufHazard, []) ∧
      (nextOf (step (hosting [.bufWrite (.lit 0) (.lit 0x55)] [.host] false))).map (fun t => (t.hostFault, t.buf)) =
        some (none, [(0, 0x55)]) := by decide

/-- Log 10: a WR of 2^32 to CMD is accepted, with a word nothing says, and a BW of 256 writes one byte. -/
theorem test_wide_values :
    (nextOf (step (hosting [.regWrite 32 0x10 (.lit 0x100000000)] [] false))).map (fun t => (t.busy, t.host.pc)) =
        some (true, 1) ∧
      (nextOf (step (hosting [.bufWrite (.lit 3) (.lit 0x100)] [] false))).map
        (fun t => (t.buf.map (·.1), t.host.pc)) = some ([3], 1) := ⟨rfl, rfl⟩

/-- Rule R63's example, from its text. -/
theorem test_pseudo_expansion :
    (Pseudo.ofSyntax "pack_bits_to_byte" ["16".toList, "3".toList, "0x5".toList]).map Pseudo.expand =
      some [Line.wr .opa (.lit 16), Line.wr .opb (.lit 3), Line.wr .opc (.lit 5), Line.wr .cmd (.lit 0x3), .wait] := by
  decide

/-- V96, one byte of it: the byte stays old or becomes new, whatever the draw; registers and STATUS read 0. -/
theorem test_reset_in_flight :
    ((tornBuf [(0, 0x01)] 0 1 ([(0, 0x77)], 0)).1 = [(0, 0x77)] ∨
        (tornBuf [(0, 0x01)] 0 1 ([(0, 0x77)], 0)).1 = [(0, 0x01)]) ∧
      regRead .status (resetEvent { latched 0 0 0xFF 0 [] with cmdl := 0x1 }) = 0 ∧
      regRead .cmd (resetEvent { latched 0 0 0xFF 0 [] with cmdl := 0x1 }) = 0 := by
  refine ⟨?_, rfl, rfl⟩
  cases h : Config.freeChoice 0
  · left; simp [tornBuf, h]
  · right; simp [tornBuf, h, Memory.read?, Memory.write, findKey, putKey]

/-! Every statement with hypotheses has a case that meets them, clause by clause, at the edge of each range. -/

/-- ExpandByteWritesEightFlags: C = 256 and 255; base + 8 = 65 and 64. -/
theorem witness_expandByte :
    2 ^ 8 ≤ (latched 0 0 256 0 []).oplC.toNat ∧
      ((latched 50 7 255 0 []).oplC.toNat < 2 ^ 8 ∧
        (latched 50 7 255 0 []).config.bufSize < (latched 50 7 255 0 []).oplA.toNat + (latched 50 7 255 0 []).oplB.toNat + 8) ∧
      ((latched 50 6 255 0 []).oplC.toNat < 2 ^ 8 ∧
        (latched 50 6 255 0 []).oplA.toNat + (latched 50 6 255 0 []).oplB.toNat + 8 ≤
          (latched 50 6 255 0 []).config.bufSize) := by decide

/-- The hypotheses of ExpandBytesWritesFlags's third and fourth clauses but for the overlap, on a state. -/
abbrev rangesFit (s : State) : Prop :=
  s.oplC.toNat ≠ 0 ∧ s.oplA.toNat + s.oplB.toNat + s.oplC.toNat ≤ s.config.bufSize ∧
    s.oplD.toNat + (s.oplC.toNat + 7) / 8 ≤ s.config.bufSize

/-- ExpandBytesWritesFlags: the count of 0; each range one past BUF (V16 for the source); ranges that share one byte; and
ranges that only touch, with a written source byte (V15). -/
theorem witness_expandBytes :
    (latched 0xFFFFFFFF 0xFFFFFFFF 0 0xFFFFFFFF []).oplC.toNat = 0 ∧
      (latched 56 0 9 0 []).config.bufSize <
        (latched 56 0 9 0 []).oplA.toNat + (latched 56 0 9 0 []).oplB.toNat + (latched 56 0 9 0 []).oplC.toNat ∧
      (latched 0 0 9 63 []).config.bufSize < (latched 0 0 9 63 []).oplD.toNat + ((latched 0 0 9 63 []).oplC.toNat + 7) / 8 ∧
      rangesFit (latched 1 0 8 8 []) ∧ (1 ≤ 8 ∧ 8 < 1 + 8) ∧ (8 ≤ 8 ∧ 8 < 8 + (8 + 7) / 8) ∧
      rangesFit (latched 1 0 8 0 (bytesAt 0 [0x03])) ∧
      (latched 1 0 8 0 (bytesAt 0 [0x03])).buf.read? (0 + 7 / 8) = some 0x03 := by decide

theorem witness_expandBytes_disjoint : ¬ ∃ a, (1 ≤ a ∧ a < 1 + 8) ∧ (0 ≤ a ∧ a < 0 + (8 + 7) / 8) := by
  rintro ⟨a, h⟩; omega

/-- PackBitsGathersEntries: C = 9; 8 entries one past BUF; 8 entries ending at BUF's end, one of them written; C = 0. -/
theorem witness_packBits :
    8 < (latched 0 0 9 0 []).oplC.toNat ∧
      ((latched 57 0 8 0 []).oplC.toNat ≤ 8 ∧ 0 < (latched 57 0 8 0 []).oplC.toNat ∧
        (latched 57 0 8 0 []).config.bufSize <
          (latched 57 0 8 0 []).oplA.toNat + (latched 57 0 8 0 []).oplB.toNat + (latched 57 0 8 0 []).oplC.toNat) ∧
      ((latched 56 0 8 0 (bytesAt 63 [2])).oplA.toNat + (latched 56 0 8 0 (bytesAt 63 [2])).oplB.toNat +
          (latched 56 0 8 0 (bytesAt 63 [2])).oplC.toNat ≤ (latched 56 0 8 0 (bytesAt 63 [2])).config.bufSize ∧
        (latched 56 0 8 0 (bytesAt 63 [2])).buf.read? (56 + 0 + 7) = some 2) ∧
      (latched 0xFFFFFFFF 0 0 0 []).oplC.toNat = 0 := by decide

/-- DecodeFloatAbcdAssembles, DecodeFloatDcbaAssembles, DcbaIsByteReversedAbcd (any such states): A or B = 2^16, and both = 2^16 - 1. -/
theorem witness_decodeFloat :
    2 ^ 16 ≤ (latched 0x10000 0 0 0 []).oplA.toNat ∧ 2 ^ 16 ≤ (latched 0 0x10000 0 0 []).oplB.toNat ∧
      (latched 0xFFFF 0xFFFF 0 0 []).oplA.toNat < 2 ^ 16 ∧ (latched 0xFFFF 0xFFFF 0 0 []).oplB.toNat < 2 ^ 16 := by decide

/-- NibbleToHexGivesDigit, ByteToHexGivesPair: the first value that fails and the last that does not. -/
theorem witness_toHex :
    2 ^ 4 ≤ (latched 0x10 0 0 0 []).oplA.toNat ∧ (latched 0xF 0 0 0 []).oplA.toNat < 2 ^ 4 ∧
      2 ^ 8 ≤ (latched 0x100 0 0 0 []).oplA.toNat ∧ (latched 0xFF 0 0 0 []).oplA.toNat < 2 ^ 8 := by decide

/-- HexToByteDecodesPair: the pair one past BUF; the pair at BUF's end; a bad second character at each edge of the
alphabet; a good pair with a digit at each end of its two ranges, in a legal configuration. -/
theorem witness_hexToByte :
    (latched 62 1 0 0 []).config.bufSize < (latched 62 1 0 0 []).oplA.toNat + (latched 62 1 0 0 []).oplB.toNat + 2 ∧
      (latched 62 0 0 0 []).oplA.toNat + (latched 62 0 0 0 []).oplB.toNat + 2 ≤ (latched 62 0 0 0 []).config.bufSize ∧
      (∀ c ∈ [0x2F#8, 0x3A#8, 0x40#8, 0x47#8],
        (latched 62 0 0 0 [(63, c)]).buf.read? (62 + 0 + 1) = some c ∧
          ¬ ((0x30 ≤ c.toNat ∧ c.toNat ≤ 0x39) ∨ (0x41 ≤ c.toNat ∧ c.toNat ≤ 0x46))) ∧
      (latched 62 0 0 0 []).config.legal ∧
      (∀ p ∈ [(0, 0x30#8), (9, 0x39#8), (10, 0x41#8), (15, 0x46#8)],
        (latched 62 0 0 0 [(62, p.2), (63, p.2)]).buf.read? (62 + 0) = some p.2 ∧
          ((p.1 ≤ 9 ∧ p.2.toNat = 0x30 + p.1) ∨ (10 ≤ p.1 ∧ p.1 ≤ 15 ∧ p.2.toNat = 0x37 + p.1))) := by decide

/-- A word the decoder rejects is no command. -/
theorem rejected {w : Word} {r : IllegalWord} (h : decode w = .error r) : ∀ i, decode w ≠ .ok i := by
  intro i h'; rw [h] at h'; cases h'

/-- DecodeEncodeAgree; IllegalWordsCompleteWithErrIllegal and CmdWriteAcceptsOrDrops (an illegal word at each edge, written
while BUSY = 0). -/
theorem witness_words :
    Instr.hexToByte.wellFormed = true ∧ decode 0xB#32 = .ok .hexToByte ∧ (∀ i, decode 0x0#32 ≠ .ok i) ∧
      (∀ i, decode 0xC#32 ≠ .ok i) ∧ (∀ i, decode 0x10#32 ≠ .ok i) ∧ State.reset.busy = false ∧
      (latched 0 0 0 0 []).busy = true :=
  ⟨rfl, rfl, rejected (r := .opcodeUnassigned) rfl, rejected (r := .opcodeUnassigned) rfl,
    rejected (r := .reservedBitsSet) rfl, rfl, rfl⟩

/-- A BSWAP32 in flight with some turns to come. -/
def inFlight (turns : List Turn) : State := { latched 0x12345678 0 0 0 [] with cmdl := 0x8, schedule := turns }

/-- StepRunsDecodedCommand, both clauses; BusyUnitEventuallySteps. -/
theorem witness_inFlight :
    (inFlight []).hostFault = none ∧ (inFlight []).busy = true ∧ decode (inFlight []).cmdl = .ok .bswap32 ∧
      Instr.bswap32.wellFormed = true ∧ (inFlight []).schedule = [] ∧ (inFlight [.unit, .host]).schedule = .unit :: [.host] :=
  ⟨rfl, rfl, rfl, rfl, rfl, rfl⟩

/-- StepRunsHostLine, all four clauses; UnitTurnPassesWhenIdle. -/
theorem witness_hostTurn :
    (hosting [.wait] [] false).hostLine? = some .wait ∧ (hosting [.wait] [.host] true).hostLine? = some .wait ∧
      (hosting [] [] false).hostLine? = none ∧ (hosting [] [.host] true).schedule = .host :: [] ∧
      (hosting [] [.unit] false).schedule = .unit :: [] ∧ (hosting [] [] false).hostFault = none := by decide

/-- StatusWriteClearsOvrOnly: bit 6 set alone, and every bit but bit 6. -/
theorem witness_statusWrite :
    (0x00000040#32).toNat / 2 ^ 6 % 2 = 1 ∧ (0xFFFFFFBF#32).toNat / 2 ^ 6 % 2 = 0 := by decide

/-- RegisterAccessDecoding: the first undecoded offset, a misaligned one, a decoded offset at another width; the first and
the last register, and the largest value. -/
theorem witness_registerAccess :
    (∀ p ∈ [(32, 0x20), (32, 0x02), (16, 0x00)],
        ¬ (p.1 = 32 ∧ p.2 ∈ [0x00, 0x04, 0x08, 0x0C, 0x10, 0x14, 0x18, 0x1C])) ∧
      ((0x00, Reg.opa) ∈ [(0x00, Reg.opa), (0x04, .opb), (0x08, .opc), (0x0C, .opd), (0x10, .cmd), (0x14, .res0),
        (0x18, .res1), (0x1C, .status)]) ∧
      ((0x1C, Reg.status) ∈ [(0x00, Reg.opa), (0x04, .opb), (0x08, .opc), (0x0C, .opd), (0x10, .cmd), (0x14, .res0),
        (0x18, .res1), (0x1C, .status)]) ∧
      State.reset.evalHost (.lit 0xFFFFFFFF) < 2 ^ 32 := by decide

/-- HostBufAccessWhileBusyFaults: a BW and a BR. -/
theorem witness_bufHazard :
    HostTurnNext (hosting [.bufWrite (.lit 0) (.lit 0x55)] [.host] true) ∧
      (hosting [.bufWrite (.lit 0) (.lit 0x55)] [.host] true).busy = true ∧
      (hosting [.bufWrite (.lit 0) (.lit 0x55)] [.host] true).hostLine? = some (.bufWrite (.lit 0) (.lit 0x55)) ∧
      HostTurnNext (hosting [.bufRead (.lit 0) none] [.host] true) ∧
      (hosting [.bufRead (.lit 0) none] [.host] true).hostLine? = some (.bufRead (.lit 0) none) := by decide

/-- HostBufAccessWhileIdle: the last address and the first one outside, the largest byte, a written byte.
UnwrittenByteReadsFresh: a byte beside it. -/
theorem witness_bufIdle :
    ({ State.reset with buf := [(63, 0xFF)] }).busy = false ∧
      ({ State.reset with buf := [(63, 0xFF)] }).evalHost (.lit 63) < ({ State.reset with buf := [(63, 0xFF)] }).config.bufSize ∧
      ({ State.reset with buf := [(63, 0xFF)] }).config.bufSize ≤ State.reset.evalHost (.lit 64) ∧
      State.reset.evalHost (.lit 255) < 2 ^ 8 ∧ Memory.read? [(63, 0xFF)] 63 = some 0xFF ∧
      Memory.read? [(63, 0xFF)] 62 = none := by decide

/-- ResetAbandonsCommand, with a unit turn after the reset; ResetValues. -/
theorem witness_reset :
    (inFlight [.reset, .unit]).hostFault = none ∧ (inFlight [.reset, .unit]).schedule = .reset :: [.unit] ∧
      State.reset.busy = false := by decide

/-- ResetWhileBusyTearsWriteSet: a command that would succeed, with a byte inside and one outside its write set; one that
would fail; an illegal word. -/
theorem witness_resetWhileBusy :
    (∃ t, (latched 0 0 0xFF 0 []).busy = true ∧
        decode ({ latched 0 0 0xFF 0 [] with cmdl := 0x1 }).cmdl = .ok .expandByte ∧
        exec .expandByte { latched 0 0 0xFF 0 [] with cmdl := 0x1 } = .next t ∧ t.code = .ok ∧
        7 < (writeRange .expandByte { latched 0 0 0xFF 0 [] with cmdl := 0x1 }).2 ∧ ¬ (0 ≤ 8 ∧ 8 < 0 + 8)) ∧
      (∃ t, exec .expandByte { latched 0 0 0x100 0 [] with cmdl := 0x1 } = .next t ∧ t.code ≠ .ok) ∧
      ∀ i, decode ({ latched 0 0 0 0 [] with cmdl := 0xF }).cmdl ≠ .ok i :=
  ⟨⟨_, rfl, rfl, rfl, by decide, by decide, by decide⟩, ⟨_, rfl, by decide⟩, rejected (r := .opcodeUnassigned) rfl⟩

/-- The invariant of a state in flight, with BUF at its last address. -/
theorem witness_inv : (({ inFlight [] with buf := [(63, 0xFF)] } : State)).Inv ∧ (inFlight []).busy = true :=
  ⟨⟨by decide, by decide, by decide, by decide, by decide⟩, rfl⟩

/-- StepKeepsInvariant, OnlyAcceptanceCompletionResetWriteStatus: a step from it. -/
theorem witness_step : ∃ t, step (({ inFlight [] with buf := [(63, 0xFF)] } : State)) = .next t := ⟨_, rfl⟩

/-- EarlyReadsAreDefined: an invariant state with BUSY = 0, and a step that leaves BUSY at 1 (a host turn). -/
theorem witness_earlyReads :
    State.reset.Inv ∧ State.reset.busy = false ∧ (inFlight [.host]).Inv ∧ (inFlight [.host]).busy = true ∧
      ∃ t, step (inFlight [.host]) = .next t ∧ t.busy = true :=
  ⟨⟨by decide, by decide, by decide, by decide, by decide⟩, rfl, ⟨by decide, by decide, by decide, by decide, by decide⟩,
    rfl, _, rfl, rfl⟩

/-- WideHostValuesRun: the least value too wide for each access, the last BUF address. -/
theorem witness_wide :
    2 ^ 32 ≤ State.reset.evalHost (.lit 0x100000000) ∧ 2 ^ 8 ≤ State.reset.evalHost (.lit 0x100) ∧
      State.reset.busy = false ∧ State.reset.evalHost (.lit 63) < State.reset.config.bufSize := by decide

/-- A host about to write `v` to a register, with OVR, RES0 and OPA set. -/
def writing (r : Reg) (v : Nat) (busy : Bool) : State :=
  { hosting [Line.wr r (.lit v)] [.host] busy with opA := 7, res0 := 7, ovr := !busy }

/-- OnlyNamedEventsWriteRegisters: OPA changes by a WR, RES0 by a BSWAP32, OVR is set by a dropped CMD write and cleared by
a STATUS write, and a reset changes all three. -/
theorem witness_registerEvents :
    (∃ t, step (writing .opa 9 false) = .next t ∧ t.opA ≠ (writing .opa 9 false).opA ∧
        (Reg.opa, (writing .opa 9 false).opA, t.opA) ∈ [(Reg.opa, (writing .opa 9 false).opA, t.opA)]) ∧
      (∃ t, step (inFlight []) = .next t ∧ t.res0 ≠ (inFlight []).res0) ∧
      (∃ t, step (writing .cmd 8 true) = .next t ∧ t.ovr = true ∧ (writing .cmd 8 true).ovr = false) ∧
      (∃ t, step (writing .status 0x40 false) = .next t ∧ t.ovr = false ∧ (writing .status 0x40 false).ovr = true) ∧
      ∃ t, step { writing .opa 9 false with schedule := [.reset] } = .next t ∧ t.opA ≠ 7 ∧ t.res0 ≠ 7 ∧ t.ovr = false :=
  ⟨⟨_, rfl, by decide, by decide⟩, ⟨_, rfl, by decide⟩, ⟨_, rfl, by decide, by decide⟩, ⟨_, rfl, by decide, by decide⟩,
    ⟨_, rfl, by decide, by decide, by decide⟩⟩

/-- OnlyNamedEventsWriteBuf: a byte changes by a BW to BUF's last address and by an EXPAND_BYTE that ends there. -/
theorem witness_bufEvents :
    (∃ t, step (hosting [.bufWrite (.lit 63) (.lit 0xFF)] [] false) = .next t ∧
        t.buf.read? 63 ≠ (hosting [.bufWrite (.lit 63) (.lit 0xFF)] [] false).buf.read? 63) ∧
      ∃ t, step { latched 56 0 0xFF 0 [] with cmdl := 0x1 } = .next t ∧
        t.buf.read? 63 ≠ (latched 56 0 0xFF 0 []).buf.read? 63 :=
  ⟨⟨_, rfl, by decide⟩, ⟨_, rfl, by decide⟩⟩

/-- CommandsWriteOnlyTheirRange, NoCommandWritesItsSource, CommandsReportTheirErrors: a command that succeeds, with a read
range and a write range; EveryCommandCompletesPrecisely: one that fails. -/
theorem witness_ranges :
    (∃ t, exec .expandBytes (latched 1 0 8 0 (bytesAt 0 [0x03])) = .next t ∧ t.code = .ok ∧
        (readRange .expandBytes (latched 1 0 8 0 (bytesAt 0 [0x03]))) = (0, 1) ∧
        (writeRange .expandBytes (latched 1 0 8 0 (bytesAt 0 [0x03]))) = (1, 8)) ∧
      namesRes0 .expandBytes = false ∧ namesRes1 .expandBytes = false ∧
      ∃ t, exec .packBits (latched 0 0 9 0 []) = .next t ∧ t.code ≠ .ok :=
  ⟨⟨_, rfl, by decide, by decide, by decide⟩, rfl, rfl, ⟨_, rfl, by decide⟩⟩

/-- OutcomeDependsOnNamedInputs: PACK_BITS in two states that differ in everything it may not depend on. -/
theorem witness_dependence :
    namedOperands .packBits (latched 0 0 1 0 [(0, 1)]) = namedOperands .packBits (latched 0 0 1 9 [(0, 1), (1, 1)]) ∧
      (latched 0 0 1 0 [(0, 1)]).config.bufSize = (latched 0 0 1 9 [(0, 1), (1, 1)]).config.bufSize ∧
      (latched 0 0 1 0 [(0, 1)]).freeCount = (latched 0 0 1 9 [(0, 1), (1, 1)]).freeCount ∧
      (∀ a, 0 ≤ a → a < 0 + 1 → Memory.read? [(0, 1)] a = Memory.read? [(0, 1), (1, 1)] a) ∧
      readRange .packBits (latched 0 0 1 0 [(0, 1)]) = (0, 1) :=
  ⟨by decide, by decide, by decide, by
    intro a _ h
    have ha : a = 0 := by omega
    subst ha; rfl, by decide⟩

/-- CapacityContractConfinesWrites: EXPAND_BYTE into a buffer of 8 bytes at 56. -/
theorem witness_capacity :
    CapacityKept [(56, 8)] .expandByte (latched 50 6 0xFF 0 []) ∧ ∃ t, exec .expandByte (latched 50 6 0xFF 0 []) = .next t :=
  ⟨fun a h => ⟨(56, 8), by simp, by rcases h with h | h <;> simp_all [inRange, readRange, writeRange, latched, bufAddr]⟩,
    _, rfl⟩

/-- ExpandThenPackReturnsByte: v = 255, ending at BUF's end, and the second command's state. -/
theorem witness_expandThenPack :
    255 < 256 ∧ 56 + 8 ≤ (latched 50 6 255 0 []).config.bufSize ∧
      (latched 50 6 255 0 []).oplA.toNat + (latched 50 6 255 0 []).oplB.toNat = 56 ∧ (latched 50 6 255 0 []).oplC.toNat = 255 ∧
      ∃ t, exec .expandByte (latched 50 6 255 0 []) = .next t ∧
        (latched 56 0 8 0 (bytesAt 56 [1, 1, 1, 1, 1, 1, 1, 1])).buf = t.buf ∧
        (latched 56 0 8 0 []).oplA.toNat + (latched 56 0 8 0 []).oplB.toNat = 56 ∧ (latched 56 0 8 0 []).oplC.toNat = 8 :=
  ⟨by decide, by decide, by decide, by decide, _, rfl, by decide, by decide, by decide⟩

/-- ExpandBytesThenPackReturnsBytes: V12's 12 bits, and the partial group k = 1, r = 4. -/
theorem witness_expandBytesThenPack :
    ∃ t, exec .expandBytes (latched 16 2 12 0 (bytesAt 0 [0xA5, 0x3C])) = .next t ∧ t.code = .ok ∧
      (∀ j, j < (12 + 7) / 8 → (bytesAt 0 [0xA5, 0x3C]).read? (0 + j) = some (if j = 0 then 0xA5#8 else 0x3C#8)) ∧
      1 < (12 + 7) / 8 ∧ 4 = min 8 (12 - 8 * 1) ∧ (latched 18 8 4 0 t.buf).buf = t.buf ∧ (latched 18 8 4 0 t.buf).config = t.config ∧
      (latched 18 8 4 0 t.buf).oplA.toNat + (latched 18 8 4 0 t.buf).oplB.toNat = 16 + 2 + 8 * 1 ∧
      (latched 18 8 4 0 t.buf).oplC.toNat = 4 :=
  ⟨_, rfl, by decide, by decide, by decide, by decide, rfl, rfl, by decide, by decide⟩

/-- EncodeThenDecodeReturnsPattern: the second command's operands are the first one's results (V41, V46). -/
theorem witness_encodeThenDecode :
    (∃ t, exec .encodeFloatAbcd (latched 0x7FC00001 0 0 0 []) = .next t ∧
        (latched 0x0001 0x7FC0 0 0 []).oplA = t.res0 ∧ (latched 0x0001 0x7FC0 0 0 []).oplB = t.res1) ∧
      ∃ t, exec .encodeFloatDcba (latched 0x7FC00001 0 0 0 []) = .next t ∧
        (latched 0xC07F 0x0100 0 0 []).oplA = t.res0 ∧ (latched 0xC07F 0x0100 0 0 []).oplB = t.res1 :=
  ⟨⟨_, rfl, by decide, by decide⟩, ⟨_, rfl, by decide, by decide⟩⟩

/-- ByteToHexToByte: b = 0xFF at BUF's last two bytes, in a legal configuration. -/
theorem witness_hexRoundTrip :
    (latched 0xFF 0 0 0 []).oplA.toNat = 0xFF ∧
      ∃ t, exec .byteToHex (latched 0xFF 0 0 0 []) = .next t ∧
        (latched 32 30 0 0 (bytesAt 62 [0x46, 0x46])).config.legal ∧ 62 + 2 ≤ (latched 32 30 0 0 []).config.bufSize ∧
        (latched 32 30 0 0 (bytesAt 62 [0x46, 0x46])).buf =
          (Memory.write (Memory.write t.buf 62 (BitVec.ofNat 8 t.res0.toNat)) (62 + 1) (BitVec.ofNat 8 t.res1.toNat)) ∧
        (latched 32 30 0 0 []).oplA.toNat + (latched 32 30 0 0 []).oplB.toNat = 62 :=
  ⟨by decide, _, rfl, by decide, by decide, by decide, by decide⟩

/-- A host about to run a pseudo-instruction between two lines: rule R63's example, the largest literal as its index. -/
def pseudoHost : State :=
  { State.reset with
    host :=
      { HostAgent.idle with
        script := [.wait] ++ (Pseudo.packBitsToByte (.lit 16) (.lit 0xFFFFFFFF) (.lit 5)).expand ++ [.wait], pc := 1 } }

/-- PseudoExpansionRunsCommand. -/
theorem witness_pseudo :
    (Pseudo.packBitsToByte (.lit 16) (.lit 0xFFFFFFFF) (.lit 5)).operands = [16, 0xFFFFFFFF, 5].map Expr.lit ∧
      (∀ n ∈ [16, 0xFFFFFFFF, 5], n < 2 ^ 32) ∧ pseudoHost.hostFault = none ∧ pseudoHost.busy = false ∧
      pseudoHost.schedule = [] ∧ pseudoHost.host.pc = [Line.wait].length := by decide

/-- HostControlLines: WAIT while BUSY = 1 and while BUSY = 0; a label after another line; a label
the script does not have; a condition that holds and one that does not. -/
theorem witness_hostControl :
    (hosting [.wait, .label 3] [] true).busy = true ∧ (hosting [.wait, .label 3] [] false).busy = false ∧
      (hosting [.wait, .label 3] [] false).host.script = [.wait] ++ .label 3 :: [] ∧ .label 3 ∉ [Line.wait] ∧
      .label 4 ∉ (hosting [.wait, .label 3] [] false).host.script ∧ State.reset.evalHost (.lit 1) ≠ 0 ∧
      State.reset.evalHost (.lit 0) = 0 := by decide

/-- CanonicalBufsAreEqual: one memory written in two orders. -/
theorem witness_canonical :
    (Memory.write (Memory.write [] 0 1) 63 2).wf ∧ (Memory.write (Memory.write [] 63 2) 0 1).wf ∧
      Memory.write (Memory.write [] 0 1) 63 2 = Memory.write (Memory.write [] 63 2) 0 1 := by decide

/-- OnlyHostMisuseStops: a marked state, a step that marks, and a line refused for each reason. -/
theorem witness_stops :
    step (State.reset.markFault .hostBufHazard) = .fault .hostBufHazard ∧
      step (hosting [.regRead 32 0x20 none] [] false) = .refused .hostAccessUnsupported ∧
      step (hosting [.goto 1] [] false) = .refused .scriptLabelUnknown ∧
      ∃ t, step (hosting [.bufRead (.lit 64) none] [] false) = .next t ∧ t.hostFault = some .hostBufAddress :=
  ⟨rfl, rfl, rfl, _, rfl, rfl⟩

end Sys2Proof.Tests
end

/-! # Proofs of the scope statements (spec/00_scope.md)

The invariant at reset and under every step (O30, O31), precise completion (O33), and the independence of a command from
the live operand registers (O36). -/

namespace Sys2Proof.Machine

/-! ## Completion -/

/-- The state a command leaves has the shape of `exec_shape`. -/
theorem execShape_of_exec {i : Instr} {s t : State} (h : exec i s = .next t) :
    ∃ m n r0 r1 c, ExecShape s t m n r0 r1 c := by
  obtain ⟨t', m, n, r0, r1, c, hexec, hshape⟩ := exec_shape i s
  obtain rfl : t' = t := by rw [hexec] at h; injection h
  exact ⟨m, n, r0, r1, c, hshape⟩

/-- What a command leaves is a completion with the frame of rule R92. -/
theorem ExecShape.completesWith {s t : State} {m : Memory} {n : Nat} {r0 r1 : Word} {c : ResultCode}
    (h : ExecShape s t m n r0 r1 c) : CompletesWith c s t := by
  obtain ⟨rfl, -, -, -⟩ := h
  exact ⟨rfl, rfl, rfl, ⟨rfl, rfl, rfl, rfl, rfl, rfl, rfl, rfl, rfl, rfl, rfl, rfl, rfl, rfl⟩⟩

/-- A command that fails has written no BUF byte and no result register (rules R12, R40). -/
theorem ExecShape.sameResults_of_failed {s t : State} {m : Memory} {n : Nat} {r0 r1 : Word} {c : ResultCode}
    (h : ExecShape s t m n r0 r1 c) (hc : c ≠ .ok) : SameBuf s t ∧ t.res0 = s.res0 ∧ t.res1 = s.res1 := by
  obtain ⟨rfl, hfail, -, -⟩ := h
  obtain ⟨rfl, rfl, rfl⟩ := hfail hc
  exact ⟨fun _ => rfl, rfl, rfl⟩

/-- Settles O33, from what every command can leave (`exec_shape`). -/
theorem everyCommandCompletesPrecisely : Obligations.EveryCommandCompletesPrecisely := by
  unfold Obligations.EveryCommandCompletesPrecisely
  intro i s
  obtain ⟨t, m, n, r0, r1, c, hexec, hshape⟩ := exec_shape i s
  have hcomp := hshape.completesWith
  obtain rfl := hcomp.code
  exact ⟨t, hexec, hcomp, hshape.sameResults_of_failed⟩

/-! ## The invariant

Each kind of event has its rule: a completion and a reset establish the STATUS clauses, an acceptance establishes them
too, and every other event leaves STATUS and the latches alone. BUF keeps its form and its bound in all of them. -/

/-- With BUSY = 0 and DONE = 1 rule R25 asks nothing more. -/
theorem State.inv_of_done {s : State} (hlegal : s.config.legal) (hwf : s.buf.wf)
    (hwithin : s.buf.within s.config.bufSize) (hbusy : s.busy = false) (hdone : s.done = true) : s.Inv :=
  ⟨hlegal, hwf, hwithin, by simp [hbusy], by simp [hdone]⟩

/-- An idle block that has accepted nothing since reset meets rule R25. -/
theorem State.inv_of_fresh {s : State} (hlegal : s.config.legal) (hwf : s.buf.wf)
    (hwithin : s.buf.within s.config.bufSize) (hbusy : s.busy = false) (hfresh : s.fresh) : s.Inv :=
  ⟨hlegal, hwf, hwithin, by simp [hbusy], fun _ _ => hfresh⟩

/-- Settles O30: the block is fresh after reset, and its BUF is empty. -/
theorem invariantAtReset : Obligations.InvariantAtReset := by
  unfold Obligations.InvariantAtReset
  have hlegal : State.reset.config.legal := by decide
  have hfresh : State.reset.fresh := by decide
  exact State.inv_of_fresh hlegal reset_buf_wf (fun c hc => absurd hc List.not_mem_nil) rfl hfresh

/-- A BUF in canonical form and inside its size may take the place of the old one; and the invariant does not speak of the
draw counter, the host, the fault mark or the schedule. -/
theorem State.Inv.withBuf {s : State} (hs : s.Inv) {m : Memory} (hwf : m.wf) (hwithin : m.within s.config.bufSize)
    (n : Nat) (g : HostAgent) (f : Option Fault) (ts : List Turn) :
    State.Inv { s with buf := m, freeCount := n, host := g, hostFault := f, schedule := ts } :=
  ⟨hs.legal, hwf, hwithin, hs.busyStatus, hs.idleFresh⟩

/-- What is not the block's, and the draw counter, do not matter to the invariant. -/
theorem State.Inv.withOutside {s : State} (hs : s.Inv) (n : Nat) (g : HostAgent) (f : Option Fault) (ts : List Turn) :
    State.Inv { s with freeCount := n, host := g, hostFault := f, schedule := ts } :=
  hs.withBuf hs.bufWf hs.bufWithin n g f ts

/-- A STATUS write never sets OVR (rule R24). -/
@[simp] theorem ovrAfterWrite_false (w : Word) : ovrAfterWrite w false = false := by simp [ovrAfterWrite]

/-- A CMD write keeps the invariant: acceptance clears CODE and DONE (rule R20), and a dropped command finds BUSY = 1. -/
theorem writeCmd_inv {s : State} (hs : s.Inv) (w : Word) : (writeCmd w s).Inv := by
  unfold writeCmd
  split
  · rename_i hbusy
    exact ⟨hs.legal, hs.bufWf, hs.bufWithin, hs.busyStatus, by simp [hbusy]⟩
  · exact ⟨hs.legal, hs.bufWf, hs.bufWithin, fun _ => ⟨rfl, rfl⟩, by simp⟩

/-- A STATUS write keeps the invariant: a fresh block has OVR = 0, and it stays 0. -/
theorem writeStatus_inv {s : State} (hs : s.Inv) (w : Word) : (writeStatus w s).Inv := by
  refine ⟨hs.legal, hs.bufWf, hs.bufWithin, hs.busyStatus, fun hbusy hdone => ?_⟩
  obtain ⟨hcmdl, hA, hB, hC, hD, hres0, hres1, hcode, hovr⟩ := hs.idleFresh hbusy hdone
  exact ⟨hcmdl, hA, hB, hC, hD, hres0, hres1, hcode, by simp [hovr]⟩

/-- A host register write keeps the invariant. -/
theorem regWrite_inv {s : State} (hs : s.Inv) (r : Reg) (w : Word) : (regWrite r w s).Inv := by
  cases r with
  | cmd => exact writeCmd_inv hs w
  | status => exact writeStatus_inv hs w
  | res0 | res1 => exact hs
  | opa | opb | opc | opd => exact ⟨hs.legal, hs.bufWf, hs.bufWithin, hs.busyStatus, hs.idleFresh⟩

/-- A host line keeps the invariant: the only byte it can write lies inside BUF. -/
theorem HostEffect.inv {l : Line} {s t : State} (h : HostEffect l s t) (hs : s.Inv) : t.Inv := by
  cases h with
  | host g => exact hs.withOutside ..
  | write r e w n g => exact (regWrite_inv (hs.withOutside n s.host s.hostFault s.schedule) r w).withOutside ..
  | bufWrite addr e v n g hl hb ha =>
    exact hs.withBuf (Memory.write_wf _ v hs.bufWf) (Memory.write_within v ha hs.bufWithin) ..
  | bufRead n g => exact hs.withOutside ..
  | mark f => exact hs.withOutside ..

/-- A command keeps the invariant: it completes, and BUF keeps its form and its bound. -/
theorem exec_inv {i : Instr} {s t : State} (h : exec i s = .next t) (hs : s.Inv) : t.Inv := by
  obtain ⟨m, n, r0, r1, c, rfl, -, hwf, hwithin⟩ := execShape_of_exec h
  exact State.inv_of_done hs.legal (hwf hs.bufWf) (hwithin hs.bufWithin) rfl rfl

/-- The BUF a reset leaves: the old one, or the torn write set of a latched command that would have succeeded (rule
R108). -/
theorem bufAfterReset_cases (s : State) :
    (bufAfterReset s).1 = s.buf ∨
      ∃ i t, s.busy = true ∧ decode s.cmdl = .ok i ∧ exec i s = .next t ∧ t.code = .ok ∧
        bufAfterReset s = tornBuf t.buf (writeRange i s).1 (writeRange i s).2 (s.buf, t.freeCount) := by
  unfold bufAfterReset
  split
  · rename_i hbusy
    split
    · rename_i i hdecode
      split
      · rename_i t hexec
        split
        · rename_i hok
          exact .inr ⟨i, t, hbusy, hdecode, hexec, hok, rfl⟩
        · exact .inl rfl
      · exact .inl rfl
      · exact .inl rfl
    · exact .inl rfl
  · exact .inl rfl

/-- A reset leaves BUF in canonical form and inside its size, torn or not. -/
theorem bufAfterReset_wf_within {s : State} (hs : s.Inv) :
    (bufAfterReset s).1.wf ∧ (bufAfterReset s).1.within s.config.bufSize := by
  obtain hold | ⟨i, t, -, -, hexec, -, htorn⟩ := bufAfterReset_cases s
  · rw [hold]
    exact ⟨hs.bufWf, hs.bufWithin⟩
  · obtain ⟨m, n, r0, r1, c, rfl, -, -, hwithin⟩ := execShape_of_exec hexec
    rw [htorn]
    exact ⟨tornBuf_wf _ _ _ hs.bufWf, tornBuf_within _ (hwithin hs.bufWithin) hs.bufWithin⟩

/-- The reset event keeps the invariant: the block is fresh after it (rule R31). -/
theorem resetEvent_inv {s : State} (hs : s.Inv) : (resetEvent s).Inv := by
  obtain ⟨hwf, hwithin⟩ := bufAfterReset_wf_within hs
  exact State.inv_of_fresh hs.legal hwf hwithin rfl ⟨rfl, rfl, rfl, rfl, rfl, rfl, rfl, rfl, rfl⟩

/-- Settles O31, by the cases of what a step can do (`step_effect`). -/
theorem stepKeepsInvariant : Obligations.StepKeepsInvariant := by
  unfold Obligations.StepKeepsInvariant
  intro s t hs hstep
  obtain ⟨-, u, ts, rfl, heffect⟩ := step_effect hstep
  have hu : (s.withSchedule ts).Inv := hs.withOutside ..
  cases heffect with
  | unitIdle _ _ ht => exact ht ▸ hu
  | unitRuns _ _ i _ hexec => exact exec_inv hexec hu
  | unitIllegal _ _ _ _ ht => exact ht ▸ State.inv_of_done hu.legal hu.bufWf hu.bufWithin rfl rfl
  | hostDone _ _ ht => exact ht ▸ hu
  | hostRuns _ l _ hline => exact (runLine_effect hline).inv hu
  | reset _ ht => exact ht ▸ resetEvent_inv hu

/-! ## The live operand registers

`withOperands` commutes with every operation a command is made of, and none of the fields a command reads sees it. -/

/-- The state with OPA..OPD rewritten. -/
def State.withOperands (a b c d : Word) (s : State) : State := { s with opA := a, opB := b, opC := c, opD := d }

section Operands

variable (a b c d : Word) (s : State)

@[simp] theorem State.withOperands_config : (s.withOperands a b c d).config = s.config := rfl
@[simp] theorem State.withOperands_buf : (s.withOperands a b c d).buf = s.buf := rfl
@[simp] theorem State.withOperands_freeCount : (s.withOperands a b c d).freeCount = s.freeCount := rfl
@[simp] theorem State.withOperands_oplA : (s.withOperands a b c d).oplA = s.oplA := rfl
@[simp] theorem State.withOperands_oplB : (s.withOperands a b c d).oplB = s.oplB := rfl
@[simp] theorem State.withOperands_oplC : (s.withOperands a b c d).oplC = s.oplC := rfl
@[simp] theorem State.withOperands_oplD : (s.withOperands a b c d).oplD = s.oplD := rfl

/-- A choice of which neither branch sees the rewriting does not see it. -/
@[simp] theorem State.ite_withOperands (p : Prop) [Decidable p] (t : State) :
    (if p then s.withOperands a b c d else t.withOperands a b c d) = (if p then s else t).withOperands a b c d :=
  (apply_ite (State.withOperands a b c d) p s t).symm

@[simp] theorem State.complete_withOperands (r : ResultCode) :
    (s.withOperands a b c d).complete r = (s.complete r).withOperands a b c d := rfl

@[simp] theorem State.setRes0_withOperands (v : Word) :
    (s.withOperands a b c d).setRes0 v = (s.setRes0 v).withOperands a b c d := rfl

@[simp] theorem State.setRes1_withOperands (v : Word) :
    (s.withOperands a b c d).setRes1 v = (s.setRes1 v).withOperands a b c d := rfl

@[simp] theorem State.memWrite_withOperands (addr : Nat) (v : Byte) :
    (s.withOperands a b c d).memWrite addr v = (s.memWrite addr v).withOperands a b c d := rfl

@[simp] theorem State.memRead_withOperands (addr : Nat) :
    (s.withOperands a b c d).memRead addr = ((s.memRead addr).1, (s.memRead addr).2.withOperands a b c d) := by
  cases h : s.buf.read? addr with
  | some v => simp [State.memRead_written, h]
  | none => simp [State.memRead_unwritten, h, State.withOperands]

@[simp] theorem expandByteLoop_withOperands (base : Nat) (v : Word) (n : Nat) :
    expandByteLoop base v n (s.withOperands a b c d) = (expandByteLoop base v n s).withOperands a b c d := by
  induction n with
  | zero => rfl
  | succ n ih => simp [expandByteLoop, ih]

@[simp] theorem expandBytesLoop_withOperands (dbase src n : Nat) :
    expandBytesLoop dbase src n (s.withOperands a b c d) = (expandBytesLoop dbase src n s).withOperands a b c d := by
  induction n with
  | zero => rfl
  | succ n ih => simp [expandBytesLoop, expandBit, ih]

@[simp] theorem packBitsLoop_withOperands (sbase n : Nat) :
    packBitsLoop sbase n (s.withOperands a b c d) =
      ((packBitsLoop sbase n s).1, (packBitsLoop sbase n s).2.withOperands a b c d) := by
  induction n with
  | zero => rfl
  | succ n ih => simp [packBitsLoop, ih]

/-- Rewriting OPA..OPD before a command or after it comes to the same: the command's tests and operands are the latches',
and each branch it ends in commutes with the rewriting. -/
theorem exec_withOperands (i : Instr) :
    ∃ t, exec i s = .next t ∧ exec i (s.withOperands a b c d) = .next (t.withOperands a b c d) := by
  cases i with
  | expandByte => exact ⟨_, rfl, by simp [exec, execExpandByte]⟩
  | expandBytes => exact ⟨_, rfl, by simp [exec, execExpandBytes]⟩
  | packBits => exact ⟨_, rfl, by simp [exec, execPackBits]⟩
  | decodeFloatAbcd => exact ⟨_, rfl, by simp [exec, execDecodeFloatAbcd]⟩
  | decodeFloatDcba => exact ⟨_, rfl, by simp [exec, execDecodeFloatDcba]⟩
  | nibbleToHex => exact ⟨_, rfl, by simp [exec, execNibbleToHex]⟩
  | byteToHex => exact ⟨_, rfl, by simp [exec, execByteToHex]⟩
  | hexToByte => exact ⟨_, rfl, by simp [exec, execHexToByte]⟩
  | encodeFloatAbcd | encodeFloatDcba | bswap32 => exact ⟨_, rfl, rfl⟩

end Operands

/-- Settles O36: every command commutes with rewriting OPA..OPD (`exec_withOperands`). -/
theorem liveOperandsDoNotMatter : Obligations.LiveOperandsDoNotMatter := by
  unfold Obligations.LiveOperandsDoNotMatter
  exact fun i s a b c d => exec_withOperands a b c d s i

end Sys2Proof.Machine

/-! # Proofs of the state statements (spec/10_state.md)

Register accesses and STATUS (O19-O22), reset (O27-O29), what a command writes and what its outcome depends on (O34, O35),
and which events change the block's registers (O32, O49, O53). -/

namespace Sys2Proof.Machine

/-! ## What a command writes -/

/-- What a command in `s` that leaves `t` may have written: flags inside BUF in its write range, and the results it names
(rules R22, R36, R42, R56, R67). -/
structure WritesOnlyRange (i : Instr) (s t : State) : Prop where
  outside : ∀ a, ¬ ((writeRange i s).1 ≤ a ∧ a < (writeRange i s).1 + (writeRange i s).2) →
    t.buf.read? a = s.buf.read? a
  res0 : namesRes0 i = false → t.res0 = s.res0
  res1 : namesRes1 i = false → t.res1 = s.res1
  inside : t.code = .ok → ∀ a, (writeRange i s).1 ≤ a → a < (writeRange i s).1 + (writeRange i s).2 →
    a < s.config.bufSize ∧ ∃ b, t.buf.read? a = some (flagByte b)

/-- A failure that has written nothing. -/
theorem WritesOnlyRange.of_failed {i : Instr} {s t : State} (hcode : t.code ≠ .ok) (hbuf : t.buf = s.buf)
    (h0 : t.res0 = s.res0) (h1 : t.res1 = s.res1) : WritesOnlyRange i s t :=
  ⟨fun _ _ => by rw [hbuf], fun _ => h0, fun _ => h1, fun hok => absurd hok hcode⟩

/-- A command with an empty write range that has left BUF alone. -/
theorem WritesOnlyRange.of_sameBuf {i : Instr} {s t : State} (hempty : (writeRange i s).2 = 0) (hbuf : t.buf = s.buf)
    (h0 : namesRes0 i = false → t.res0 = s.res0) (h1 : namesRes1 i = false → t.res1 = s.res1) :
    WritesOnlyRange i s t :=
  ⟨fun _ _ => by rw [hbuf], h0, h1, fun _ a _ _ => by omega⟩

/-- A check that fails a command without an effect, and what the command does past it. -/
theorem WritesOnlyRange.check {i : Instr} {s t : State} {p : Prop} [Decidable p] {c : ResultCode} (hc : c ≠ .ok)
    (h : ¬ p → WritesOnlyRange i s t) : WritesOnlyRange i s (if p then s.complete c else t) := by
  split
  · exact .of_failed hc rfl rfl rfl
  · rename_i hp
    exact h hp

theorem execExpandByte_writesOnlyRange {s t : State} (h : exec .expandByte s = .next t) :
    WritesOnlyRange .expandByte s t := by
  cases h
  refine .check (by decide) fun _ => .check (by decide) fun hrange => ?_
  have hfits := rangeInBuf_iff.1 (by simpa using hrange)
  refine ⟨fun a ha => ?_, fun _ => by rw [expandByteLoop_state]; rfl, fun _ => by rw [expandByteLoop_state]; rfl,
    fun _ a hlo hhi => ?_⟩ <;> simp only [writeRange, State.complete_buf, expandByteLoop_read] at *
  · rw [if_neg ha]
  · exact ⟨by omega, _, if_pos ⟨hlo, hhi⟩⟩

theorem execExpandBytes_writesOnlyRange {s t : State} (h : exec .expandBytes s = .next t) :
    WritesOnlyRange .expandBytes s t := by
  cases h
  by_cases hcount : s.oplC.toNat = 0
  · simp only [hcount, if_true]
    exact .of_sameBuf hcount rfl (fun _ => rfl) (fun _ => rfl)
  simp only [hcount, if_false]
  refine .check (by decide) fun hrange => .check (by decide) fun _ => ?_
  simp only [Bool.or_eq_true, Bool.not_eq_true', not_or, Bool.not_eq_false] at hrange
  have hfits := rangeInBuf_iff.1 hrange.1
  obtain ⟨m, k, hloop⟩ := expandBytesLoop_state (bufAddr s.oplA s.oplB) s.oplD.toNat s.oplC.toNat s
  refine ⟨fun a ha => ?_, fun _ => by rw [hloop]; rfl, fun _ => by rw [hloop]; rfl, fun _ a hlo hhi => ?_⟩ <;>
    simp only [writeRange] at *
  · exact expandBytesLoop_read_outside _ _ _ _ (by omega)
  · obtain ⟨j, rfl⟩ := Nat.exists_eq_add_of_le hlo
    exact ⟨by omega, expandBytesLoop_read_flag _ _ _ _ (by omega)⟩

theorem execPackBits_writesOnlyRange {s t : State} (h : exec .packBits s = .next t) : WritesOnlyRange .packBits s t := by
  cases h
  refine .check (by decide) fun _ => .check (by decide) fun _ => ?_
  obtain ⟨k, hloop⟩ := packBitsLoop_state (bufAddr s.oplA s.oplB) s.oplC.toNat s
  exact .of_sameBuf rfl (by simp [hloop]) (by simp [namesRes0]) (by simp [hloop])

theorem execHexToByte_writesOnlyRange {s t : State} (h : exec .hexToByte s = .next t) : WritesOnlyRange .hexToByte s t := by
  cases h
  refine .check (by decide) fun _ => ?_
  obtain ⟨n0, hread0⟩ := s.memRead_state (bufAddr s.oplA s.oplB)
  obtain ⟨n1, hread1⟩ := State.memRead_state { s with freeCount := n0 } (bufAddr s.oplA s.oplB + 1)
  simp only [hread0, hread1]
  split
  · exact .of_failed (by simp) rfl rfl rfl
  · exact .of_sameBuf rfl rfl (by simp [namesRes0]) (by simp [namesRes1])

/-- Every command writes only its write range and the results it names. -/
theorem exec_writesOnlyRange {i : Instr} {s t : State} (h : exec i s = .next t) : WritesOnlyRange i s t := by
  cases i with
  | expandByte => exact execExpandByte_writesOnlyRange h
  | expandBytes => exact execExpandBytes_writesOnlyRange h
  | packBits => exact execPackBits_writesOnlyRange h
  | hexToByte => exact execHexToByte_writesOnlyRange h
  | encodeFloatAbcd | encodeFloatDcba | bswap32 =>
    cases h
    exact .of_sameBuf rfl rfl (by simp [namesRes0]) (by simp [namesRes1])
  | decodeFloatAbcd | decodeFloatDcba | nibbleToHex | byteToHex =>
    cases h
    exact .check (by decide) fun _ => .of_sameBuf rfl rfl (by simp [namesRes0]) (by simp [namesRes1])

/-- Settles O34, from what every command writes (`exec_writesOnlyRange`); a flag byte is 0x00 or 0x01. -/
theorem commandsWriteOnlyTheirRange : Obligations.CommandsWriteOnlyTheirRange := by
  unfold Obligations.CommandsWriteOnlyTheirRange
  intro i s t hexec
  obtain ⟨houtside, h0, h1, hinside⟩ := exec_writesOnlyRange hexec
  refine ⟨houtside, h0, h1, fun hok a hlo hhi => ?_⟩
  obtain ⟨hsize, b, hread⟩ := hinside hok a hlo hhi
  exact ⟨hsize, (flagByte_cases b).imp (hread.trans <| congrArg some ·) (hread.trans <| congrArg some ·)⟩

/-! ## What a command's outcome depends on

Two runs of a command are kept in step: the bytes both have read alike so far, and the draw counter. -/

/-- Two states stand at the same draw and read the same at every address of `A` (log 3). -/
structure AgreeOn (A : Set Nat) (s₁ s₂ : State) : Prop where
  freeCount : s₁.freeCount = s₂.freeCount
  read : ∀ a ∈ A, s₁.buf.read? a = s₂.buf.read? a

/-- States that agree on an address read the same byte there, and agree after the read. -/
theorem AgreeOn.memRead {A : Set Nat} {s₁ s₂ : State} (h : AgreeOn A s₁ s₂) {a : Nat} (ha : a ∈ A) :
    (s₁.memRead a).1 = (s₂.memRead a).1 ∧ AgreeOn A (s₁.memRead a).2 (s₂.memRead a).2 := by
  have hread := h.read a ha
  cases h₂ : s₂.buf.read? a with
  | some v =>
    rw [h₂] at hread
    rw [State.memRead_written hread, State.memRead_written h₂]
    exact ⟨rfl, h⟩
  | none =>
    rw [h₂] at hread
    rw [State.memRead_unwritten hread, State.memRead_unwritten h₂]
    exact ⟨congrArg Config.freeByte h.freeCount, congrArg (· + 1) h.freeCount, h.read⟩

/-- States that agree on `A` agree at a byte just written too. -/
theorem AgreeOn.memWrite {A : Set Nat} {s₁ s₂ : State} (h : AgreeOn A s₁ s₂) (a : Nat) (v : Byte) :
    AgreeOn (insert a A) (s₁.memWrite a v) (s₂.memWrite a v) := by
  refine ⟨h.freeCount, fun b hb => ?_⟩
  simp only [State.memWrite_buf, Memory.read?_write]
  split
  · rfl
  · exact h.read b (hb.resolve_left ‹_›)

/-- Rule R69's loop from states that agree on the source bytes: they agree on the entries written too. -/
theorem AgreeOn.expandBytesLoop {A : Set Nat} {s₁ s₂ : State} (h : AgreeOn A s₁ s₂) (dbase src n : Nat)
    (hsrc : ∀ j < n, src + j / 8 ∈ A) :
    AgreeOn (A ∪ Set.Ico dbase (dbase + n)) (expandBytesLoop dbase src n s₁) (expandBytesLoop dbase src n s₂) := by
  induction n with
  | zero => simpa [Machine.expandBytesLoop] using h
  | succ n ih =>
    obtain ⟨hbyte, hafter⟩ := (ih fun j hj => hsrc j (by omega)).memRead (.inl (hsrc n (by omega)))
    simp only [Machine.expandBytesLoop, expandBit, hbyte]
    have hwrite := hafter.memWrite (dbase + n)
    refine ⟨(hwrite _).freeCount, fun a ha => (hwrite _).read a ?_⟩
    rcases ha with ha | ⟨hlo, hhi⟩
    · exact .inr (.inl ha)
    · exact (by omega : a = dbase + n ∨ a < dbase + n).imp_right fun ha => .inr ⟨hlo, ha⟩

/-- Rule R70's loop from states that agree on the entries gathers the same byte. -/
theorem AgreeOn.packBitsLoop {A : Set Nat} {s₁ s₂ : State} (h : AgreeOn A s₁ s₂) (sbase n : Nat)
    (hsrc : ∀ j < n, sbase + j ∈ A) :
    (packBitsLoop sbase n s₁).1 = (packBitsLoop sbase n s₂).1 ∧
      AgreeOn A (packBitsLoop sbase n s₁).2 (packBitsLoop sbase n s₂).2 := by
  induction n with
  | zero => exact ⟨rfl, h⟩
  | succ n ih =>
    obtain ⟨hbits, hagree⟩ := ih fun j hj => hsrc j (by omega)
    obtain ⟨hbyte, hafter⟩ := hagree.memRead (hsrc n (by omega))
    simp only [Machine.packBitsLoop, hbits, hbyte, true_and]
    exact hafter

/-- The outcomes `t₁` and `t₂` of a command are the same: the code, and on success the results it names and the bytes it
writes. `s` is the state whose latches give the write range. -/
structure SameOutcome (i : Instr) (s t₁ t₂ : State) : Prop where
  code : t₁.code = t₂.code
  res0 : t₁.code = .ok → namesRes0 i = true → t₁.res0 = t₂.res0
  res1 : t₁.code = .ok → namesRes1 i = true → t₁.res1 = t₂.res1
  written : t₁.code = .ok → ∀ a, (writeRange i s).1 ≤ a → a < (writeRange i s).1 + (writeRange i s).2 →
    t₁.buf.read? a = t₂.buf.read? a

/-- Two failures with one code. -/
theorem SameOutcome.of_failed {i : Instr} {s t₁ t₂ : State} {c : ResultCode} (hc : c ≠ .ok) :
    SameOutcome i s (t₁.complete c) (t₂.complete c) :=
  ⟨rfl, fun hok => absurd hok hc, fun hok => absurd hok hc, fun hok => absurd hok hc⟩

/-- Two outcomes of a command with an empty write range. -/
theorem SameOutcome.of_results {i : Instr} {s t₁ t₂ : State} (hempty : (writeRange i s).2 = 0)
    (hcode : t₁.code = t₂.code) (h0 : namesRes0 i = true → t₁.res0 = t₂.res0)
    (h1 : namesRes1 i = true → t₁.res1 = t₂.res1) : SameOutcome i s t₁ t₂ :=
  ⟨hcode, fun _ => h0, fun _ => h1, fun _ a _ _ => by omega⟩

/-- A check both runs make alike, and what they do past it. -/
theorem SameOutcome.check {i : Instr} {s s₁ s₂ t₁ t₂ : State} {p : Prop} [Decidable p] {c : ResultCode} (hc : c ≠ .ok)
    (h : ¬ p → SameOutcome i s t₁ t₂) :
    SameOutcome i s (if p then s₁.complete c else t₁) (if p then s₂.complete c else t₂) := by
  split
  · exact .of_failed hc
  · rename_i hp
    exact h hp

section Dependence

variable {s₁ s₂ : State} (hsize : s₁.config.bufSize = s₂.config.bufSize)
include hsize

theorem execExpandByte_sameOutcome (hops : namedOperands .expandByte s₁ = namedOperands .expandByte s₂) :
    ∃ t₁ t₂, exec .expandByte s₁ = .next t₁ ∧ exec .expandByte s₂ = .next t₂ ∧ SameOutcome .expandByte s₁ t₁ t₂ := by
  refine ⟨_, _, rfl, rfl, ?_⟩
  simp only [namedOperands, List.cons.injEq, and_true] at hops
  obtain ⟨hA, hB, hC⟩ := hops
  simp only [← hA, ← hB, ← hC, ← hsize]
  refine .check (by decide) fun _ => .check (by decide) fun _ => ⟨rfl, nofun, nofun, fun _ a hlo hhi => ?_⟩
  simp only [State.complete_buf, expandByteLoop_read]
  rw [if_pos ⟨hlo, hhi⟩, if_pos ⟨hlo, hhi⟩]

theorem execExpandBytes_sameOutcome (hops : namedOperands .expandBytes s₁ = namedOperands .expandBytes s₂)
    (hagree : AgreeOn (Set.Ico s₁.oplD.toNat (s₁.oplD.toNat + ceil8 s₁.oplC.toNat)) s₁ s₂) :
    ∃ t₁ t₂, exec .expandBytes s₁ = .next t₁ ∧ exec .expandBytes s₂ = .next t₂ ∧
      SameOutcome .expandBytes s₁ t₁ t₂ := by
  refine ⟨_, _, rfl, rfl, ?_⟩
  simp only [namedOperands, List.cons.injEq, and_true] at hops
  obtain ⟨hA, hB, hC, hD⟩ := hops
  simp only [← hA, ← hB, ← hC, ← hD, ← hsize]
  by_cases hcount : s₁.oplC.toNat = 0
  · simp only [hcount, if_true]
    exact .of_results hcount rfl nofun nofun
  simp only [hcount, if_false]
  refine .check (by decide) fun _ => .check (by decide) fun _ => ⟨rfl, nofun, nofun, fun _ a hlo hhi => ?_⟩
  have hsrc : ∀ j < s₁.oplC.toNat,
      s₁.oplD.toNat + j / 8 ∈ Set.Ico s₁.oplD.toNat (s₁.oplD.toNat + ceil8 s₁.oplC.toNat) := fun j hj =>
    ⟨by omega, by have := div8_lt_ceil8 hj; omega⟩
  exact (hagree.expandBytesLoop _ _ _ hsrc).read a (.inr ⟨hlo, hhi⟩)

theorem execPackBits_sameOutcome (hops : namedOperands .packBits s₁ = namedOperands .packBits s₂)
    (hagree : AgreeOn (Set.Ico (bufAddr s₁.oplA s₁.oplB) (bufAddr s₁.oplA s₁.oplB + s₁.oplC.toNat)) s₁ s₂) :
    ∃ t₁ t₂, exec .packBits s₁ = .next t₁ ∧ exec .packBits s₂ = .next t₂ ∧ SameOutcome .packBits s₁ t₁ t₂ := by
  refine ⟨_, _, rfl, rfl, ?_⟩
  simp only [namedOperands, List.cons.injEq, and_true] at hops
  obtain ⟨hA, hB, hC⟩ := hops
  simp only [← hA, ← hB, ← hC, ← hsize]
  obtain ⟨hbyte, -⟩ := hagree.packBitsLoop (bufAddr s₁.oplA s₁.oplB) s₁.oplC.toNat fun j hj =>
    ⟨by omega, by omega⟩
  exact .check (by decide) fun _ => .check (by decide) fun _ =>
    .of_results rfl rfl (fun _ => congrArg (BitVec.setWidth 32) hbyte) nofun

theorem execHexToByte_sameOutcome (hops : namedOperands .hexToByte s₁ = namedOperands .hexToByte s₂)
    (hagree : AgreeOn (Set.Ico (bufAddr s₁.oplA s₁.oplB) (bufAddr s₁.oplA s₁.oplB + 2)) s₁ s₂) :
    ∃ t₁ t₂, exec .hexToByte s₁ = .next t₁ ∧ exec .hexToByte s₂ = .next t₂ ∧ SameOutcome .hexToByte s₁ t₁ t₂ := by
  refine ⟨_, _, rfl, rfl, ?_⟩
  simp only [namedOperands, List.cons.injEq, and_true] at hops
  obtain ⟨hA, hB⟩ := hops
  obtain ⟨hchar0, hafter⟩ := hagree.memRead (a := bufAddr s₁.oplA s₁.oplB) ⟨by omega, by omega⟩
  obtain ⟨hchar1, -⟩ := hafter.memRead (a := bufAddr s₁.oplA s₁.oplB + 1) ⟨by omega, by omega⟩
  simp only [← hA, ← hB, ← hsize, hchar0, hchar1]
  exact .check (by decide) fun _ => .check (by decide) fun _ => .of_results rfl rfl (fun _ => rfl) (fun _ => rfl)

/-- Two runs of a command that agree on the operands it names and on its read range have the same outcome. The commands
that read no BUF byte and write none are functions of their operands. -/
theorem exec_sameOutcome {i : Instr} (hops : namedOperands i s₁ = namedOperands i s₂)
    (hagree : AgreeOn (Set.Ico (readRange i s₁).1 ((readRange i s₁).1 + (readRange i s₁).2)) s₁ s₂) :
    ∃ t₁ t₂, exec i s₁ = .next t₁ ∧ exec i s₂ = .next t₂ ∧ SameOutcome i s₁ t₁ t₂ := by
  cases i with
  | expandByte => exact execExpandByte_sameOutcome hsize hops
  | expandBytes => exact execExpandBytes_sameOutcome hsize hops hagree
  | packBits => exact execPackBits_sameOutcome hsize hops hagree
  | hexToByte => exact execHexToByte_sameOutcome hsize hops hagree
  | encodeFloatAbcd | encodeFloatDcba | bswap32 =>
    simp only [namedOperands, List.cons.injEq, and_true] at hops
    exact ⟨_, _, rfl, rfl, .of_results rfl rfl (by simp [hops]) (by simp [hops, namesRes1])⟩
  | decodeFloatAbcd | decodeFloatDcba | nibbleToHex | byteToHex =>
    simp only [namedOperands, List.cons.injEq, and_true] at hops
    refine ⟨_, _, rfl, rfl, ?_⟩
    simp only [hops]
    exact .check (by decide) fun _ => .of_results rfl rfl (fun _ => rfl) (by simp [namesRes1])

end Dependence

/-- Settles O35: the two runs of each command stay in step (`exec_sameOutcome`). -/
theorem outcomeDependsOnNamedInputs : Obligations.OutcomeDependsOnNamedInputs := by
  unfold Obligations.OutcomeDependsOnNamedInputs
  intro i s₁ s₂ hops hsize hcount hbytes
  obtain ⟨t₁, t₂, h₁, h₂, hcode, h0, h1, hwritten⟩ :=
    exec_sameOutcome hsize hops ⟨hcount, fun a ha => hbytes a ha.1 ha.2⟩
  exact ⟨t₁, t₂, h₁, h₂, hcode, fun hok => ⟨h0 hok, h1 hok, hwritten hok⟩⟩

/-! ## Register accesses (rules R19-R24) -/

/-- Bit `k` of a word as arithmetic. -/
theorem getLsbD_eq_true_iff {n : Nat} (w : BitVec n) (k : Nat) : w.getLsbD k = true ↔ w.toNat / 2 ^ k % 2 = 1 := by
  rw [BitVec.getLsbD, Nat.testBit_eq_decide_div_mod_eq, decide_eq_true_iff]

/-- Rule R24 as arithmetic on the word written. -/
theorem ovrAfterWrite_eq (w : Word) (ovr : Bool) :
    ovrAfterWrite w ovr = if w.toNat / 2 ^ 6 % 2 = 1 then false else ovr := by
  simp only [ovrAfterWrite, getLsbD_eq_true_iff]

/-- An accepted CMD write. -/
theorem writeCmd_of_idle {s : State} (h : s.busy = false) (w : Word) : writeCmd w s = s.accept w := by simp [writeCmd, h]

/-- A dropped CMD write. -/
theorem writeCmd_of_busy {s : State} (h : s.busy = true) (w : Word) : writeCmd w s = s.dropCommand := by
  simp [writeCmd, h]

/-- The unit completes an illegal word with ERR_ILLEGAL (rules R59, R92). -/
theorem unitStep_of_illegal {s : State} (h : ∀ i, decode s.cmdl ≠ .ok i) : unitStep s = .next (s.complete .errIllegal) := by
  unfold unitStep
  cases hd : decode s.cmdl with
  | ok i => exact absurd hd (h i)
  | error r => rfl

/-- Settles O19: acceptance and dropping are `writeCmd_of_idle` and `writeCmd_of_busy`. -/
theorem cmdWriteAcceptsOrDrops : Obligations.CmdWriteAcceptsOrDrops := by
  unfold Obligations.CmdWriteAcceptsOrDrops
  intro s w
  refine ⟨fun hbusy => ?_, fun hidle => ?_⟩
  · have hdrop : regWrite .cmd w s = s.dropCommand := writeCmd_of_busy hbusy w
    rw [hdrop]
    exact ⟨rfl, rfl⟩
  · have haccept : regWrite .cmd w s = s.accept w := writeCmd_of_idle hidle w
    rw [haccept]
    exact ⟨rfl, rfl, unitStep_of_illegal (s := s.accept w)⟩

/-- Settles O20: bit 6 of the word decides, and the write is to OVR alone. -/
theorem statusWriteClearsOvrOnly : Obligations.StatusWriteClearsOvrOnly := by
  unfold Obligations.StatusWriteClearsOvrOnly
  intro s w
  have hwrite : regWrite .status w s = { s with ovr := ovrAfterWrite w s.ovr } := rfl
  rw [hwrite, ovrAfterWrite_eq]
  refine ⟨fun hset => ?_, fun hclear => ?_⟩
  · rw [if_pos hset]
  · rw [if_neg (by omega)]

/-- The word a STATUS read returns, as a sum of its fields (rule R23). -/
theorem statusWord_toNat (s : State) :
    (statusWord s).toNat = s.code.number.toNat + s.busy.toNat * 16 + s.done.toNat * 32 + s.ovr.toNat * 64 := by
  simp only [statusWord, toNat_append_eq, BitVec.toNat_ofBool, BitVec.toNat_ofNat]
  omega

/-- Settles O21: the fields of `statusWord_toNat`, with the code's number of rule R93. -/
theorem statusReadFields : Obligations.StatusReadFields := by
  unfold Obligations.StatusReadFields
  intro s
  have hfield : ∀ (b : Bool) (n : Nat), b.toNat * n = if b then n else 0 := by
    intro b n
    cases b <;> simp
  simp only [regRead, statusWord_toNat, hfield]
  cases s.code <;> rfl

/-- Settles O22: these accesses are the model's own equations. -/
theorem plainRegisterWrites : Obligations.PlainRegisterWrites := by
  unfold Obligations.PlainRegisterWrites
  exact fun s w => ⟨rfl, rfl, rfl, rfl, rfl, rfl, rfl, rfl, rfl, rfl, rfl, rfl, rfl⟩

/-! ## Reset (rules R31, R107, R108) -/

section Reset

variable (s : State)

@[simp] theorem resetEvent_opA : (resetEvent s).opA = 0#32 := rfl
@[simp] theorem resetEvent_opB : (resetEvent s).opB = 0#32 := rfl
@[simp] theorem resetEvent_opC : (resetEvent s).opC = 0#32 := rfl
@[simp] theorem resetEvent_opD : (resetEvent s).opD = 0#32 := rfl
@[simp] theorem resetEvent_res0 : (resetEvent s).res0 = 0#32 := rfl
@[simp] theorem resetEvent_res1 : (resetEvent s).res1 = 0#32 := rfl
@[simp] theorem resetEvent_busy : (resetEvent s).busy = false := rfl
@[simp] theorem resetEvent_done : (resetEvent s).done = false := rfl
@[simp] theorem resetEvent_ovr : (resetEvent s).ovr = false := rfl
@[simp] theorem resetEvent_config : (resetEvent s).config = s.config := rfl
@[simp] theorem resetEvent_buf : (resetEvent s).buf = (bufAfterReset s).1 := rfl
@[simp] theorem resetEvent_freeCount : (resetEvent s).freeCount = (bufAfterReset s).2 := rfl

theorem resetEvent_fresh : (resetEvent s).fresh := ⟨rfl, rfl, rfl, rfl, rfl, rfl, rfl, rfl, rfl⟩

theorem statusWord_resetEvent : statusWord (resetEvent s) = 0#32 := by
  apply BitVec.eq_of_toNat_eq
  rw [statusWord_toNat]
  rfl

/-- Every register reads 0 after a reset. -/
theorem regRead_resetEvent (r : Reg) : regRead r (resetEvent s) = 0#32 := by
  cases r with
  | status => exact statusWord_resetEvent s
  | _ => rfl

end Reset

/-- A reset with no command in flight leaves BUF and the draw counter alone (rule R109). -/
theorem bufAfterReset_of_idle {s : State} (h : s.busy = false) : bufAfterReset s = (s.buf, s.freeCount) := by
  simp [bufAfterReset, h]

/-- A reset during a command: the write set is torn if the command would have succeeded, and BUF is left alone if it would
have failed (rule R108). -/
theorem bufAfterReset_of_exec {s t : State} {i : Instr} (hbusy : s.busy = true) (hdecode : decode s.cmdl = .ok i)
    (hexec : exec i s = .next t) :
    bufAfterReset s =
      if t.code = .ok then tornBuf t.buf (writeRange i s).1 (writeRange i s).2 (s.buf, t.freeCount)
      else (s.buf, t.freeCount) := by
  simp [bufAfterReset, hbusy, hdecode, hexec]

/-- A reset while an illegal word is latched leaves BUF alone (rule R108). -/
theorem bufAfterReset_of_illegal {s : State} (h : ∀ i, decode s.cmdl ≠ .ok i) :
    bufAfterReset s = (s.buf, s.freeCount) := by
  unfold bufAfterReset
  cases hd : decode s.cmdl with
  | ok i => exact absurd hd (h i)
  | error r => simp

/-- Settles O27: a reset writes every register, and BUF only while a command is in flight. -/
theorem resetValues : Obligations.ResetValues := by
  unfold Obligations.ResetValues
  refine ⟨by decide, fun s => ⟨resetEvent_fresh s, rfl, rfl, rfl, rfl, rfl, rfl, statusWord_resetEvent s,
    fun hidle a => ?_⟩⟩
  rw [resetEvent_buf, bufAfterReset_of_idle hidle]

/-- An unmarked state takes the first turn of its schedule. -/
theorem step_of_schedule {s : State} {turn : Turn} {rest : List Turn} (hfault : s.hostFault = none)
    (hsched : s.schedule = turn :: rest) : step s = takeTurn turn (s.withSchedule rest) := by
  simp [step, agentStep, nextTurn, hfault, hsched]

/-- A unit turn with BUSY = 0 passes (log 18). -/
theorem unitTurn_of_idle {s : State} (h : s.busy = false) : unitTurn s = .next s := by simp [unitTurn, h]

/-- Settles O28: the step is the reset event, and the unit is idle after it. -/
theorem resetAbandonsCommand : Obligations.ResetAbandonsCommand := by
  unfold Obligations.ResetAbandonsCommand
  intro s rest hfault hsched
  refine ⟨resetEvent (s.withSchedule rest), step_of_schedule hfault hsched, resetEvent_fresh _, rfl, rfl, rfl, rfl, rfl,
    rfl, rfl, rfl, rfl, fun rest' hrest => ?_⟩
  rw [step_of_schedule (s := resetEvent (s.withSchedule rest)) hfault hrest]
  exact unitTurn_of_idle rfl

/-- Settles O29: the torn write set byte by byte (`tornBuf_read_inside`), each byte of which the command has written
(`exec_writesOnlyRange`). -/
theorem resetWhileBusyTearsWriteSet : Obligations.ResetWhileBusyTearsWriteSet := by
  unfold Obligations.ResetWhileBusyTearsWriteSet
  intro s hbusy
  refine ⟨rfl, rfl, fun i t hdecode hexec => ⟨fun hok => ?_, fun hfail a => ?_⟩, fun hillegal a => ?_⟩
  · have htorn := bufAfterReset_of_exec hbusy hdecode hexec
    rw [if_pos hok] at htorn
    simp only [resetEvent_buf, resetEvent_freeCount, htorn, tornBuf_count, true_and]
    refine ⟨fun k hk => ?_, fun a ha => tornBuf_read_outside _ _ _ _ ha⟩
    obtain ⟨-, b, hnew⟩ := (exec_writesOnlyRange hexec).inside hok _ (Nat.le_add_right _ k) (by omega)
    rw [tornBuf_read_inside _ _ _ _ hk hnew, hnew]
  · rw [resetEvent_buf, bufAfterReset_of_exec hbusy hdecode hexec, if_neg hfail]
  · rw [resetEvent_buf, bufAfterReset_of_illegal hillegal]

/-! ## The events that change the block's registers

Every step is one of four events for the registers (`RegisterEvent`); the statements about registers read off it. -/

section RegisterWrites

variable (r : Reg) (w : Word) (s : State)

@[simp] theorem writeCmd_config : (writeCmd w s).config = s.config := by unfold writeCmd; split <;> rfl
@[simp] theorem writeCmd_opA : (writeCmd w s).opA = s.opA := by unfold writeCmd; split <;> rfl
@[simp] theorem writeCmd_opB : (writeCmd w s).opB = s.opB := by unfold writeCmd; split <;> rfl
@[simp] theorem writeCmd_opC : (writeCmd w s).opC = s.opC := by unfold writeCmd; split <;> rfl
@[simp] theorem writeCmd_opD : (writeCmd w s).opD = s.opD := by unfold writeCmd; split <;> rfl
@[simp] theorem writeCmd_res0 : (writeCmd w s).res0 = s.res0 := by unfold writeCmd; split <;> rfl
@[simp] theorem writeCmd_res1 : (writeCmd w s).res1 = s.res1 := by unfold writeCmd; split <;> rfl
@[simp] theorem writeCmd_ovr : (writeCmd w s).ovr = (s.busy || s.ovr) := by
  unfold writeCmd
  split
  · rename_i hbusy
    simp [hbusy]
  · rename_i hidle
    simp [hidle]

@[simp] theorem regWrite_config : (regWrite r w s).config = s.config := by cases r <;> simp [regWrite]
@[simp] theorem regWrite_res0 : (regWrite r w s).res0 = s.res0 := by cases r <;> simp [regWrite]
@[simp] theorem regWrite_res1 : (regWrite r w s).res1 = s.res1 := by cases r <;> simp [regWrite]

/-- An operand register reads the word last written to it (rule R19). -/
theorem regRead_regWrite_of_operand {q : Reg} (hq : q ∈ [Reg.opa, .opb, .opc, .opd]) :
    regRead q (regWrite r w s) = if r = q then w else regRead q s := by
  simp only [List.mem_cons, List.not_mem_nil, or_false] at hq
  rcases hq with rfl | rfl | rfl | rfl <;> cases r <;> simp [regRead, regWrite]

/-- A register write does not see the draw counter or the schedule, and leaves them alone. -/
theorem regWrite_outside (n : Nat) (ts : List Turn) :
    regWrite r w { s with freeCount := n, schedule := ts } =
      { regWrite r w s with freeCount := n, schedule := ts } := by
  cases r with
  | cmd =>
    simp only [regWrite, writeCmd]
    split <;> rfl
  | _ => rfl

end RegisterWrites

/-- Only a CMD write while BUSY = 1 sets OVR (rules R20, R24). -/
theorem regWrite_sets_ovr {r : Reg} {w : Word} {s : State} (hovr : s.ovr = false)
    (h : (regWrite r w s).ovr = true) : r = .cmd ∧ s.busy = true := by
  cases r <;> simp_all [regWrite]

/-- Only a STATUS write of a word with bit 6 set clears OVR (rule R24). -/
theorem regWrite_clears_ovr {r : Reg} {w : Word} {s : State} (hovr : s.ovr = true)
    (h : (regWrite r w s).ovr = false) : r = .status ∧ w.toNat / 2 ^ 6 % 2 = 1 := by
  cases r <;> simp_all [regWrite, ovrAfterWrite_eq]

/-- The block's registers, latches and STATUS fields (rule R32) and the configuration are the same. -/
structure SameRegisters (s t : State) : Prop where
  config : t.config = s.config
  opA : t.opA = s.opA
  opB : t.opB = s.opB
  opC : t.opC = s.opC
  opD : t.opD = s.opD
  cmdl : t.cmdl = s.cmdl
  oplA : t.oplA = s.oplA
  oplB : t.oplB = s.oplB
  oplC : t.oplC = s.oplC
  oplD : t.oplD = s.oplD
  res0 : t.res0 = s.res0
  res1 : t.res1 = s.res1
  code : t.code = s.code
  busy : t.busy = s.busy
  done : t.done = s.done
  ovr : t.ovr = s.ovr

/-- What is not a register does not matter. -/
theorem sameRegisters_outside (s : State) (m : Memory) (n : Nat) (g : HostAgent) (f : Option Fault) (ts : List Turn) :
    SameRegisters s { s with buf := m, freeCount := n, host := g, hostFault := f, schedule := ts } :=
  ⟨rfl, rfl, rfl, rfl, rfl, rfl, rfl, rfl, rfl, rfl, rfl, rfl, rfl, rfl, rfl, rfl⟩

/-- Registers that are the same read the same. -/
theorem SameRegisters.regRead_eq {s t : State} (h : SameRegisters s t) (r : Reg) : regRead r t = regRead r s := by
  cases r with
  | opa => exact h.opA
  | opb => exact h.opB
  | opc => exact h.opC
  | opd => exact h.opD
  | cmd => exact h.cmdl
  | res0 => exact h.res0
  | res1 => exact h.res1
  | status => simp only [regRead, statusWord, h.code, h.busy, h.done, h.ovr]

/-- A command that fails has written nothing (`everyCommandCompletesPrecisely`). -/
theorem exec_keeps_of_failed {i : Instr} {s t : State} (h : exec i s = .next t) (hfail : t.code ≠ .ok) :
    SameBuf s t ∧ t.res0 = s.res0 ∧ t.res1 = s.res1 := by
  obtain ⟨t', hexec, -, hkeeps⟩ := everyCommandCompletesPrecisely i s
  obtain rfl : t' = t := by rw [hexec] at h; injection h
  exact hkeeps hfail

/-- A command changes RES0 only if it names it and succeeds (rules R22, R92). -/
theorem exec_changes_res0 {i : Instr} {s t : State} (h : exec i s = .next t) (hne : t.res0 ≠ s.res0) :
    t.code = .ok ∧ namesRes0 i = true :=
  ⟨by_contra fun hfail => hne (exec_keeps_of_failed h hfail).2.1,
    Bool.eq_true_of_not_eq_false fun hname => hne ((exec_writesOnlyRange h).res0 hname)⟩

/-- A command changes RES1 only if it names it and succeeds (rules R22, R92). -/
theorem exec_changes_res1 {i : Instr} {s t : State} (h : exec i s = .next t) (hne : t.res1 ≠ s.res1) :
    t.code = .ok ∧ namesRes1 i = true :=
  ⟨by_contra fun hfail => hne (exec_keeps_of_failed h hfail).2.2,
    Bool.eq_true_of_not_eq_false fun hname => hne ((exec_writesOnlyRange h).res1 hname)⟩

/-- A command completes with the code it leaves. -/
theorem exec_completesWith {i : Instr} {s t : State} (h : exec i s = .next t) : CompletesWith t.code s t := by
  obtain ⟨m, n, r0, r1, c, hshape⟩ := execShape_of_exec h
  have hcomp := hshape.completesWith
  rwa [hcomp.code]

/-- What a step from `s` to `t` is for the block's registers. -/
inductive RegisterEvent (s t : State) : Prop
  /-- No register changes. -/
  | keeps (h : SameRegisters s t)
  /-- The host writes a register. -/
  | writes (ht : (nextTurn s).1 = .host) (r : Reg) (e : Expr) (w : Word)
      (hl : s.hostLine? = some (.regWrite 32 r.offset e)) (hw : s.evalHost e < 2 ^ 32 → w.toNat = s.evalHost e)
      (h : SameRegisters (regWrite r w s) t)
  /-- The unit completes the latched command, or the illegal word. `ts` is what is left of the schedule. -/
  | completes (ht : (nextTurn s).1 = .unit) (hb : s.busy = true) (ts : List Turn)
      (h : CompletesWith t.code (s.withSchedule ts) t)
      (h0 : t.res0 ≠ s.res0 → t.code = .ok ∧ ∃ i, decode s.cmdl = .ok i ∧ namesRes0 i = true)
      (h1 : t.res1 ≠ s.res1 → t.code = .ok ∧ ∃ i, decode s.cmdl = .ok i ∧ namesRes1 i = true)
  /-- Reset arrives. -/
  | resets (ht : (nextTurn s).1 = .reset) (ts : List Turn) (e : t = resetEvent (s.withSchedule ts))

/-- A host line is a register write or changes no register. -/
theorem HostEffect.registerEvent {l : Line} {s t : State} {ts : List Turn} (h : HostEffect l (s.withSchedule ts) t)
    (ht : (nextTurn s).1 = .host) (hline : s.hostLine? = some l) : RegisterEvent s t := by
  cases h with
  | write r e w n g hl hw =>
    refine .writes ht r e w (hl ▸ hline) (fun hfits => ?_) ?_
    · rw [hw hfits, BitVec.toNat_ofNat]
      exact Nat.mod_eq_of_lt hfits
    · have hwrite := regWrite_outside r w s n ts
      simp only [State.withSchedule, hwrite]
      exact sameRegisters_outside ..
  | host | bufWrite | bufRead | mark => exact .keeps (sameRegisters_outside ..)

/-- Every step that answers a next state is one of those events. -/
theorem step_registerEvent {s t : State} (h : step s = .next t) : RegisterEvent s t := by
  obtain ⟨-, u, ts, rfl, heffect⟩ := step_effect h
  cases heffect with
  | unitIdle _ _ ht => exact ht ▸ .keeps (sameRegisters_outside ..)
  | hostDone _ _ ht => exact ht ▸ .keeps (sameRegisters_outside ..)
  | unitRuns hturn hbusy i hdecode hexec =>
    exact .completes hturn hbusy ts (exec_completesWith hexec)
      (fun hne => (exec_changes_res0 hexec hne).imp_right fun hname => ⟨i, hdecode, hname⟩)
      (fun hne => (exec_changes_res1 hexec hne).imp_right fun hname => ⟨i, hdecode, hname⟩)
  | unitIllegal hturn hbusy r _ ht =>
    subst ht
    exact .completes hturn hbusy ts (execShape_complete _ .errIllegal).completesWith (fun hne => absurd rfl hne)
      (fun hne => absurd rfl hne)
  | hostRuns hturn l hline hrun => exact (runLine_effect hrun).registerEvent hturn hline
  | reset hturn ht => exact .resets hturn ts ht

/-- Only an accepted CMD write reaches CODE, BUSY, DONE, CMDL or a latch (rules R19, R20, R22, R24). -/
theorem regWrite_keepsStatus {r : Reg} {s : State} (hr : r = .cmd → s.busy = true) (w : Word) :
    (regWrite r w s).code = s.code ∧ (regWrite r w s).busy = s.busy ∧ (regWrite r w s).done = s.done ∧
      (regWrite r w s).cmdl = s.cmdl ∧ (regWrite r w s).oplA = s.oplA ∧ (regWrite r w s).oplB = s.oplB ∧
      (regWrite r w s).oplC = s.oplC ∧ (regWrite r w s).oplD = s.oplD := by
  cases r with
  | cmd =>
    simp only [regWrite, writeCmd_of_busy (hr rfl)]
    exact ⟨rfl, rfl, rfl, rfl, rfl, rfl, rfl, rfl⟩
  | _ => exact ⟨rfl, rfl, rfl, rfl, rfl, rfl, rfl, rfl⟩

/-- Settles O32, by the events of `step_registerEvent`: a write to CMD while BUSY = 0 is the acceptance, and any other
register write leaves these fields alone. -/
theorem onlyAcceptanceCompletionResetWriteStatus : Obligations.OnlyAcceptanceCompletionResetWriteStatus := by
  unfold Obligations.OnlyAcceptanceCompletionResetWriteStatus
  intro s t hstep
  cases step_registerEvent hstep with
  | keeps h => exact .inl ⟨h.code, h.busy, h.done, h.cmdl, h.oplA, h.oplB, h.oplC, h.oplD⟩
  | writes hturn r e w hline hw h =>
    by_cases haccept : r = .cmd ∧ s.busy = false
    · obtain ⟨rfl, hidle⟩ := haccept
      simp only [regWrite, writeCmd_of_idle hidle] at h
      exact .inr (.inl ⟨hidle, h.busy, h.done, h.code, h.oplA, h.oplB, h.oplC, h.oplD, hturn, e, hline,
        fun hfits => h.cmdl ▸ hw hfits⟩)
    · left
      rw [h.code, h.busy, h.done, h.cmdl, h.oplA, h.oplB, h.oplC, h.oplD]
      exact regWrite_keepsStatus (fun hr => by simpa [hr] using haccept) w
  | completes hturn hbusy ts h =>
    exact .inr (.inr (.inl ⟨hbusy, h.busy, h.done, h.frame.cmdl, h.frame.oplA, h.frame.oplB, h.frame.oplC,
      h.frame.oplD, hturn⟩))
  | resets hturn ts ht =>
    subst ht
    exact .inr (.inr (.inr ⟨rfl, resetEvent_fresh _, rfl, hturn⟩))

/-- In an invariant state with BUSY = 1 STATUS reads BUSY, and OVR where it is set (rules R23, R25). -/
theorem State.Inv.statusWord_of_busy {s : State} (hs : s.Inv) (hbusy : s.busy = true) :
    (statusWord s).toNat = if s.ovr then 0x50 else 0x10 := by
  obtain ⟨hdone, hcode⟩ := hs.busyStatus hbusy
  rw [statusWord_toNat, hbusy, hdone, hcode]
  cases s.ovr <;> rfl

/-- A step that leaves BUSY at 1 completes nothing and is no reset, so RES0 and RES1 stay (rules R22, R112). -/
theorem step_keepsResults_of_busy {s t : State} (hstep : step s = .next t) (hbusy : t.busy = true) :
    t.res0 = s.res0 ∧ t.res1 = s.res1 := by
  cases step_registerEvent hstep with
  | keeps h => exact ⟨h.res0, h.res1⟩
  | writes _ r e w _ _ h => exact ⟨by simp [h.res0], by simp [h.res1]⟩
  | completes _ _ ts h => simp [h.busy] at hbusy
  | resets _ ts ht => simp [ht] at hbusy

/-- Settles O49: acceptance keeps the invariant (`writeCmd_inv`) and so does every step (`stepKeepsInvariant`), and the
invariant fixes what STATUS reads while BUSY = 1. -/
theorem earlyReadsAreDefined : Obligations.EarlyReadsAreDefined := by
  unfold Obligations.EarlyReadsAreDefined
  intro s hs
  refine ⟨fun hidle w => ?_, fun hbusy => ⟨hs.statusWord_of_busy hbusy, fun t hstep hbusy' => ?_⟩⟩
  · have haccept : regWrite .cmd w s = s.accept w := writeCmd_of_idle hidle w
    have hinv := regWrite_inv hs .cmd w
    rw [haccept] at hinv ⊢
    exact ⟨rfl, rfl, rfl, hinv.statusWord_of_busy rfl⟩
  · obtain ⟨h0, h1⟩ := step_keepsResults_of_busy hstep hbusy'
    exact ⟨h0, h1, (stepKeepsInvariant s t hs hstep).statusWord_of_busy hbusy'⟩

/-- No step changes the configuration. -/
theorem RegisterEvent.config_eq {s t : State} (h : RegisterEvent s t) : t.config = s.config := by
  cases h with
  | keeps h => exact h.config
  | writes _ r e w _ _ h => simp [h.config]
  | completes _ _ ts h => exact h.frame.config
  | resets _ ts ht => simp [ht]

/-- An operand register changes only by a host write to it or a reset (rules R19, R107). -/
theorem RegisterEvent.operand_changes {s t : State} (h : RegisterEvent s t) {q : Reg}
    (hq : q ∈ [Reg.opa, .opb, .opc, .opd]) (hne : regRead q t ≠ regRead q s) :
    ((nextTurn s).1 = .reset ∧ regRead q t = 0#32) ∨
      ((nextTurn s).1 = .host ∧ ∃ e, s.hostLine? = some (.regWrite 32 q.offset e) ∧
        (s.evalHost e < 2 ^ 32 → (regRead q t).toNat = s.evalHost e)) := by
  cases h with
  | keeps h => exact absurd (h.regRead_eq q) hne
  | writes hturn r e w hline hw h =>
    rw [h.regRead_eq, regRead_regWrite_of_operand r w s hq] at hne ⊢
    split at hne
    · rename_i hr
      subst hr
      exact .inr ⟨hturn, e, hline, by rwa [if_pos rfl]⟩
    · exact absurd rfl hne
  | completes _ _ ts h =>
    simp only [List.mem_cons, List.not_mem_nil, or_false] at hq
    rcases hq with rfl | rfl | rfl | rfl
    · exact absurd h.frame.opA hne
    · exact absurd h.frame.opB hne
    · exact absurd h.frame.opC hne
    · exact absurd h.frame.opD hne
  | resets hturn ts ht =>
    exact .inl ⟨hturn, by rw [ht, regRead_resetEvent]⟩

/-- RES0 changes only by a command that names it and completes with OK, or a reset (rules R22, R107). -/
theorem RegisterEvent.res0_changes {s t : State} (h : RegisterEvent s t) (hne : t.res0 ≠ s.res0) :
    ((nextTurn s).1 = .reset ∧ t.res0 = 0#32) ∨
      ((nextTurn s).1 = .unit ∧ s.busy = true ∧ t.code = .ok ∧ ∃ i, decode s.cmdl = .ok i ∧ namesRes0 i = true) := by
  cases h with
  | keeps h => exact absurd h.res0 hne
  | writes _ r e w _ _ h => simp [h.res0] at hne
  | completes hturn hbusy ts _ h0 => exact .inr ⟨hturn, hbusy, h0 hne⟩
  | resets hturn ts ht => exact .inl ⟨hturn, by simp [ht]⟩

/-- RES1 changes only by a command that names it and completes with OK, or a reset (rules R22, R107). -/
theorem RegisterEvent.res1_changes {s t : State} (h : RegisterEvent s t) (hne : t.res1 ≠ s.res1) :
    ((nextTurn s).1 = .reset ∧ t.res1 = 0#32) ∨
      ((nextTurn s).1 = .unit ∧ s.busy = true ∧ t.code = .ok ∧ ∃ i, decode s.cmdl = .ok i ∧ namesRes1 i = true) := by
  cases h with
  | keeps h => exact absurd h.res1 hne
  | writes _ r e w _ _ h => simp [h.res1] at hne
  | completes hturn hbusy ts _ _ h1 => exact .inr ⟨hturn, hbusy, h1 hne⟩
  | resets hturn ts ht => exact .inl ⟨hturn, by simp [ht]⟩

/-- OVR is set only by a CMD write while BUSY = 1 (rule R20). -/
theorem RegisterEvent.sets_ovr {s t : State} (h : RegisterEvent s t) (hset : t.ovr = true) (hclear : s.ovr = false) :
    (nextTurn s).1 = .host ∧ s.busy = true ∧ ∃ e, s.hostLine? = some (.regWrite 32 0x10 e) := by
  cases h with
  | keeps h => simp [h.ovr, hclear] at hset
  | writes hturn r e w hline _ h =>
    obtain ⟨rfl, hbusy⟩ := regWrite_sets_ovr hclear (h.ovr ▸ hset)
    exact ⟨hturn, hbusy, e, hline⟩
  | completes _ _ ts h => simp [h.frame.ovr, hclear] at hset
  | resets _ ts ht => simp [ht] at hset

/-- OVR is cleared only by a STATUS write with bit 6 set or a reset (rules R24, R107). -/
theorem RegisterEvent.clears_ovr {s t : State} (h : RegisterEvent s t) (hclear : t.ovr = false) (hset : s.ovr = true) :
    (nextTurn s).1 = .reset ∨
      ((nextTurn s).1 = .host ∧ ∃ e, s.hostLine? = some (.regWrite 32 0x1C e) ∧
        (s.evalHost e < 2 ^ 32 → s.evalHost e / 2 ^ 6 % 2 = 1)) := by
  cases h with
  | keeps h => simp [h.ovr, hset] at hclear
  | writes hturn r e w hline hw h =>
    obtain ⟨rfl, hbit⟩ := regWrite_clears_ovr hset (h.ovr ▸ hclear)
    exact .inr ⟨hturn, e, hline, fun hfits => hw hfits ▸ hbit⟩
  | completes _ _ ts h => simp [h.frame.ovr, hset] at hclear
  | resets hturn ts ht => exact .inl hturn

/-- Settles O53, one register at a time, by the events of `step_registerEvent`. -/
theorem onlyNamedEventsWriteRegisters : Obligations.OnlyNamedEventsWriteRegisters := by
  unfold Obligations.OnlyNamedEventsWriteRegisters
  intro s t hstep
  have h := step_registerEvent hstep
  refine ⟨h.config_eq, fun q old new hmem hne => ?_, h.res0_changes, h.res1_changes, h.sets_ovr, h.clears_ovr⟩
  simp only [List.mem_cons, Prod.mk.injEq, List.not_mem_nil, or_false] at hmem
  rcases hmem with ⟨rfl, rfl, rfl⟩ | ⟨rfl, rfl, rfl⟩ | ⟨rfl, rfl, rfl⟩ | ⟨rfl, rfl, rfl⟩
  · exact h.operand_changes (q := .opa) (by decide) hne
  · exact h.operand_changes (q := .opb) (by decide) hne
  · exact h.operand_changes (q := .opc) (by decide) hne
  · exact h.operand_changes (q := .opd) (by decide) hne

end Sys2Proof.Machine

/-! # Proofs of the memory statements (spec/20_memory.md)

The canonical form of BUF (O47), what a host turn is and what a host BUF access does (O17, O24, O25), which host lines stop
the machine (O48), and which bytes a command and a step can change (O50, O51, O54). -/

namespace Sys2Proof.Machine

/-! ## The canonical form of BUF -/

/-- In a list with strictly rising keys a key is found with the value it is listed with. -/
theorem findKey_eq_some_iff {α : Type} {k : Nat} {v : α} {m : List (Nat × α)}
    (hm : m.Pairwise (fun x y => x.1 < y.1)) : findKey k m = some v ↔ (k, v) ∈ m := by
  refine ⟨findKey_mem, fun hmem => ?_⟩
  induction m with
  | nil => cases hmem
  | cons c m ih =>
    obtain ⟨hhead, htail⟩ := List.pairwise_cons.1 hm
    rcases List.mem_cons.1 hmem with rfl | hrest
    · simp [findKey]
    · have hne : c.1 ≠ k := (hhead _ hrest).ne
      simp only [findKey, if_neg hne, ih htail hrest]

/-- Settles O47: memories that read the same list the same cells, and a strictly rising list is fixed by its cells. -/
theorem canonicalBufsAreEqual : Obligations.CanonicalBufsAreEqual := by
  unfold Obligations.CanonicalBufsAreEqual
  intro m₁ m₂ h₁ h₂ hread
  have hasymm : Std.Asymm (fun x y : Host.Cell => x.1 < y.1) := ⟨fun _ _ hlt => hlt.asymm⟩
  refine List.Pairwise.eq_of_mem_iff h₁ h₂ fun ⟨a, v⟩ => ?_
  calc (a, v) ∈ m₁ ↔ m₁.read? a = some v := (findKey_eq_some_iff h₁).symm
    _ ↔ m₂.read? a = some v := by rw [hread a]
    _ ↔ (a, v) ∈ m₂ := findKey_eq_some_iff h₂

/-! ## The host's turn -/

/-- What is left of the schedule after the next turn. -/
theorem nextTurn_rest (s : State) : (nextTurn s).2 = s.withSchedule s.schedule.tail := by
  unfold nextTurn
  cases h : s.schedule with
  | nil =>
    show s = s.withSchedule []
    rw [← h]
    rfl
  | cons turn rest => rfl

/-- An unmarked state takes its next turn. -/
theorem step_of_unmarked {s : State} (h : s.hostFault = none) :
    step s = takeTurn (nextTurn s).1 (s.withSchedule s.schedule.tail) := by
  simp only [step, agentStep, h, nextTurn_rest]

/-- A marked state answers its fault (rule R118). -/
theorem step_of_marked {s : State} {f : Fault} (h : s.hostFault = some f) : step s = .fault f := by
  simp only [step, agentStep, h]

/-- When the host's turn is next, the step is that turn. -/
theorem step_of_hostTurnNext {s : State} (h : HostTurnNext s) : step s = hostTurn (s.withSchedule s.schedule.tail) := by
  rw [step_of_unmarked h.1, h.2]
  rfl

/-- With the turns used up and BUSY = 0 the step is a host turn (log 4). -/
theorem step_of_idle {s : State} (hfault : s.hostFault = none) (hsched : s.schedule = []) (hidle : s.busy = false) :
    step s = hostTurn s := by
  simp [step, agentStep, nextTurn, takeTurn, hfault, hsched, hidle]

theorem hostTurn_of_line {s : State} {l : Line} (h : s.hostLine? = some l) : hostTurn s = runLine l s := by
  simp only [hostTurn, h]

theorem hostTurn_of_finished {s : State} (h : s.hostLine? = none) : hostTurn s = .next s := by
  simp only [hostTurn, h]

/-- Settles O17: the step is a host turn, by the empty schedule (`step_of_idle`) or by its head (`step_of_schedule`). -/
theorem stepRunsHostLine : Obligations.StepRunsHostLine := by
  unfold Obligations.StepRunsHostLine
  refine fun s hfault => ⟨fun l hline => ⟨fun hsched hidle => ?_, fun rest hsched => ?_⟩,
    fun hdone => ⟨fun hsched hidle => ?_, fun rest hsched => ?_⟩⟩
  · rw [step_of_idle hfault hsched hidle, hostTurn_of_line hline]
  · exact (step_of_schedule hfault hsched).trans (hostTurn_of_line hline)
  · rw [step_of_idle hfault hsched hidle, hostTurn_of_finished hdone]
  · exact (step_of_schedule hfault hsched).trans (hostTurn_of_finished hdone)

/-! ## Host BUF accesses -/

/-- Settles O24: the line's misuse is the hazard, so it is marked (`runLine_marks`), and a marked state answers its
fault. -/
theorem hostBufAccessWhileBusyFaults : Obligations.HostBufAccessWhileBusyFaults := by
  unfold Obligations.HostBufAccessWhileBusyFaults
  intro s addr b into hturn hbusy hline
  obtain ⟨l, hl, hmisuse⟩ : ∃ l, s.hostLine? = some l ∧
      misuseFault l (s.withSchedule s.schedule.tail) = some .hostBufHazard := by
    rcases hline with hl | hl <;> exact ⟨_, hl, by simp [misuseFault, misuseOfBuf, hbusy]⟩
  refine ⟨(s.withSchedule s.schedule.tail).markFault .hostBufHazard, ?_, rfl, step_of_marked rfl⟩
  calc step s = hostTurn (s.withSchedule s.schedule.tail) := step_of_hostTurnNext hturn
    _ = runLine l (s.withSchedule s.schedule.tail) := hostTurn_of_line hl
    _ = .next ((s.withSchedule s.schedule.tail).markFault .hostBufHazard) := runLine_marks hmisuse

/-- A host BUF write inside BUF while BUSY = 0 (rules R33, R41). -/
theorem runLine_bufWrite {s : State} {addr b : Expr} (hidle : s.busy = false)
    (haddr : s.evalHost addr < s.config.bufSize) :
    runLine (.bufWrite addr b) s =
      .next ((s.busByte (s.evalHost b)).2.memWrite (s.evalHost addr) (s.busByte (s.evalHost b)).1).hostNext := by
  simp [runLine, runBufWrite, hidle, Nat.not_le.2 haddr]

/-- A host BUF read inside BUF while BUSY = 0 (rules R33, R62), for what `MemRead` gives. -/
theorem runLine_bufRead {s : State} {addr : Expr} {v : Byte} {n : Nat} (into : Option Nat) (hidle : s.busy = false)
    (haddr : s.evalHost addr < s.config.bufSize) (hread : s.memRead (s.evalHost addr) = (v, { s with freeCount := n })) :
    runLine (.bufRead addr into) s =
      .next (((State.hostNote (.buf (s.evalHost addr) v) { s with freeCount := n }).hostBindInto into v.toNat).hostNext) := by
  simp [runLine, runBufRead, hidle, Nat.not_le.2 haddr, hread]

/-- `MemRead` gives a value and may advance the draw counter; a written byte gives its own value, without a draw. -/
theorem State.memRead_eq (s : State) (a : Nat) :
    ∃ v n, s.memRead a = (v, { s with freeCount := n }) ∧
      ∀ w, s.buf.read? a = some w → v = w ∧ n = s.freeCount := by
  cases h : s.buf.read? a with
  | some w => exact ⟨w, s.freeCount, State.memRead_written h, fun w' hw => ⟨Option.some.inj hw, rfl⟩⟩
  | none => exact ⟨_, _, State.memRead_unwritten h, fun w hw => by cases hw⟩

/-- A variable just bound holds its value, and every other variable what it held. -/
theorem varValue_putKey (x y v : Nat) (vars : List (Nat × Nat)) :
    varValue (putKey x v vars) y = if y = x then v else varValue vars y := by
  unfold varValue
  rw [findKey_putKey]
  by_cases h : y = x <;> simp [h]

/-- A host BUF access at or above BUF_SIZE while BUSY = 0 is the fault hostBufAddress (log 9). -/
theorem misuseOfBuf_outside {s : State} {addr : Expr} (hidle : s.busy = false)
    (haddr : s.config.bufSize ≤ s.evalHost addr) : misuseOfBuf addr s = some .hostBufAddress := by
  simp [misuseOfBuf, hidle, haddr]

/-- Settles O25: inside BUF by what `runLine_bufWrite` and `runLine_bufRead` leave, outside by the mark. -/
theorem hostBufAccessWhileIdle : Obligations.HostBufAccessWhileIdle := by
  unfold Obligations.HostBufAccessWhileIdle
  intro s addr b hidle
  refine ⟨fun haddr => ⟨fun hfits => ?_, ?_⟩, fun haddr => ?_⟩
  · refine ⟨(s.memWrite (s.evalHost addr) (BitVec.ofNat 8 (s.evalHost b))).hostNext, ?_, by simp,
      fun a ha => by simp [ha], rfl⟩
    rw [runLine_bufWrite hidle haddr, State.busByte_fits hfits]
  · obtain ⟨v, n, hread, hwritten⟩ := s.memRead_eq (s.evalHost addr)
    have hrun := fun into => runLine_bufRead into hidle haddr hread
    refine ⟨v, n, hwritten, hrun none, fun x => ⟨_, hrun (some x), ?_, fun y hy => ?_, rfl⟩⟩
    · simp [varValue_putKey]
    · simp [varValue_putKey, hy]
  · have hmisuse := misuseOfBuf_outside hidle haddr
    exact ⟨runLine_marks hmisuse, fun into => runLine_marks (l := .bufRead addr into) hmisuse⟩

/-! ## What stops the machine -/

/-- A host line never answers a fault: it marks one, and the next step answers it (log 8). -/
theorem runLine_ne_fault (l : Line) (s : State) (f : Fault) : runLine l s ≠ .fault f := by
  have hgoto : ∀ m, runGoto m s ≠ .fault f := by
    intro m
    unfold runGoto
    split <;> simp
  cases l with
  | regWrite | regRead =>
    simp only [runLine, runRegWrite, runRegRead]
    split <;> simp
  | bufWrite | bufRead =>
    simp only [runLine, runBufWrite, runBufRead]
    split_ifs <;> simp
  | branch cond m =>
    simp only [runLine]
    split_ifs
    · simp
    · exact hgoto m
  | goto m => exact hgoto m
  | wait | assign | label => simp [runLine, runWait]

/-- A unit turn always answers a next state: every command completes (`exec_shape`), and so does an illegal word. -/
theorem unitTurn_next (s : State) : ∃ t, unitTurn s = .next t := by
  unfold unitTurn unitStep
  split
  · split
    · rename_i i _
      obtain ⟨t, m, n, r0, r1, c, hexec, -⟩ := exec_shape i s
      exact ⟨t, hexec⟩
    · exact ⟨_, rfl⟩
  · exact ⟨_, rfl⟩

/-- No turn answers a fault. -/
theorem takeTurn_ne_fault (turn : Turn) (s : State) (f : Fault) : takeTurn turn s ≠ .fault f := by
  cases turn with
  | unit =>
    obtain ⟨t, ht⟩ := unitTurn_next s
    simp [takeTurn, ht]
  | host =>
    cases hl : s.hostLine? with
    | none => simp [takeTurn, hostTurn_of_finished hl]
    | some l => simpa [takeTurn, hostTurn_of_line hl] using runLine_ne_fault l s f
  | reset => simp [takeTurn]

/-- A turn is refused exactly when it is the host's and its line is refused. -/
theorem takeTurn_refused_iff {turn : Turn} {s : State} {r : Refusal} :
    takeTurn turn s = .refused r ↔ turn = .host ∧ ∃ l, s.hostLine? = some l ∧ misuseRefusal l s = some r := by
  cases turn with
  | unit =>
    obtain ⟨t, ht⟩ := unitTurn_next s
    simp [takeTurn, ht]
  | host =>
    cases hl : s.hostLine? with
    | none => simp [takeTurn, hostTurn_of_finished hl]
    | some l => simp [takeTurn, hostTurn_of_line hl, runLine_refused_iff]
  | reset => simp [takeTurn]

/-- A host line's misuse does not depend on the turns to come. -/
@[simp] theorem misuseFault_withSchedule (l : Line) (s : State) (ts : List Turn) :
    misuseFault l (s.withSchedule ts) = misuseFault l s := by cases l <;> rfl

@[simp] theorem misuseRefusal_withSchedule (l : Line) (s : State) (ts : List Turn) :
    misuseRefusal l (s.withSchedule ts) = misuseRefusal l s := by cases l <;> rfl

@[simp] theorem State.hostLine?_withSchedule (s : State) (ts : List Turn) :
    (s.withSchedule ts).hostLine? = s.hostLine? := rfl

/-- The fault mark after a step: the misuse of the host line it ran, if it ran one. -/
theorem step_hostFault {s t : State} (h : step s = .next t) :
    t.hostFault = if (nextTurn s).1 = .host then s.hostLine?.bind (misuseFault · s) else none := by
  obtain ⟨hfault, u, ts, rfl, heffect⟩ := step_effect h
  cases heffect with
  | unitIdle hturn _ ht => simp [hturn, ht, hfault]
  | unitRuns hturn _ i _ hexec => simp [hturn, (exec_completesWith hexec).frame.hostFault, hfault]
  | unitIllegal hturn _ _ _ ht => simp [hturn, ht, hfault]
  | hostDone hturn hline ht =>
    have hfinished : s.hostLine? = none := hline
    simp [hfinished, ht, hfault]
  | hostRuns hturn l hline hrun =>
    have hnext : s.hostLine? = some l := hline
    simp [hturn, hnext, runLine_hostFault hrun, hfault]
  | reset hturn ht => simp [hturn, ht, resetEvent, hfault]

/-- Settles O48: a marked state faults and no turn does (`takeTurn_ne_fault`), a mark is the misuse of the host line
(`step_hostFault`), and only host lines are refused (`takeTurn_refused_iff`). -/
theorem onlyHostMisuseStops : Obligations.OnlyHostMisuseStops := by
  unfold Obligations.OnlyHostMisuseStops
  intro s
  refine ⟨fun f => ?_, fun t f hstep => ?_, fun r => ?_⟩
  · cases hmark : s.hostFault with
    | some g => simp [step_of_marked hmark]
    | none => simp [step_of_unmarked hmark, takeTurn_ne_fault]
  · obtain ⟨hunmarked, -⟩ := step_effect hstep
    by_cases hturn : (nextTurn s).1 = .host <;>
      simp [step_hostFault hstep, HostTurnNext, hunmarked, hturn, Option.bind_eq_some_iff]
  · cases hmark : s.hostFault with
    | some g => simp [step_of_marked hmark, hmark]
    | none => simp [step_of_unmarked hmark, takeTurn_refused_iff, hmark]

/-! ## Which bytes a command can change -/

/-- Settles O50: a byte outside the owned buffers is outside the write range, so the command leaves it alone
(`exec_writesOnlyRange`). -/
theorem capacityContractConfinesWrites : Obligations.CapacityContractConfinesWrites := by
  unfold Obligations.CapacityContractConfinesWrites
  intro owned i s t hkept hexec a hout
  refine (exec_writesOnlyRange hexec).outside a fun hwrite => ?_
  obtain ⟨b, hmem, hin⟩ := hkept a (.inr ((inRange_iff _ _ _).2 hwrite))
  exact hout b hmem ((inRange_iff _ _ _).1 hin)

/-- EXPAND_BYTES succeeds with a non-zero count only if its two ranges share no byte (rule R69). -/
theorem execExpandBytes_disjoint {s t : State} (h : exec .expandBytes s = .next t) (hok : t.code = .ok)
    (hcount : s.oplC.toNat ≠ 0) :
    rangesShareByte (bufAddr s.oplA s.oplB) s.oplC.toNat s.oplD.toNat (ceil8 s.oplC.toNat) = false := by
  by_contra hshare
  cases h
  simp only [hcount, if_false, Bool.eq_true_of_not_eq_false hshare, if_true] at hok
  split at hok <;> cases hok

/-- The read range and the write range of a command that succeeds share no byte (rule R43). -/
theorem exec_ranges_disjoint {i : Instr} {s t : State} (h : exec i s = .next t) (hok : t.code = .ok) {a : Nat}
    (hread : (readRange i s).1 ≤ a ∧ a < (readRange i s).1 + (readRange i s).2) :
    ¬ ((writeRange i s).1 ≤ a ∧ a < (writeRange i s).1 + (writeRange i s).2) := by
  intro hwrite
  cases i with
  | expandBytes =>
    simp only [readRange, writeRange] at hread hwrite
    have hcount : s.oplC.toNat ≠ 0 := by omega
    have hshare := (rangesShareByte_iff (Nat.pos_of_ne_zero hcount) (ceil8_pos hcount)).2 ⟨a, hwrite, hread⟩
    simp [execExpandBytes_disjoint h hok hcount] at hshare
  | expandByte => simp only [readRange] at hread; omega
  | _ => simp only [writeRange] at hwrite; omega

/-- Settles O51: the ranges are disjoint, and a byte outside the write range reads as before. -/
theorem noCommandWritesItsSource : Obligations.NoCommandWritesItsSource := by
  unfold Obligations.NoCommandWritesItsSource
  intro i s t hexec hok a hlo hhi
  have hdisjoint := exec_ranges_disjoint hexec hok ⟨hlo, hhi⟩
  exact ⟨hdisjoint, (exec_writesOnlyRange hexec).outside a hdisjoint⟩

/-! ## Which events change a byte -/

/-- A command changes only bytes of its write range, and only if it succeeds (rules R36, R92). -/
theorem exec_changes_buf {i : Instr} {s t : State} (h : exec i s = .next t) {a : Nat}
    (hne : t.buf.read? a ≠ s.buf.read? a) :
    t.code = .ok ∧ (writeRange i s).1 ≤ a ∧ a < (writeRange i s).1 + (writeRange i s).2 :=
  ⟨by_contra fun hfail => hne ((exec_keeps_of_failed h hfail).1 a),
    by_contra fun hout => hne ((exec_writesOnlyRange h).outside a hout)⟩

/-- A reset changes only bytes of the write set of the command it interrupts (rule R108). -/
theorem resetEvent_changes_buf {s : State} {a : Nat} (hne : (resetEvent s).buf.read? a ≠ s.buf.read? a) :
    s.busy = true ∧ ∃ i, decode s.cmdl = .ok i ∧
      (writeRange i s).1 ≤ a ∧ a < (writeRange i s).1 + (writeRange i s).2 := by
  rw [resetEvent_buf] at hne
  obtain hold | ⟨i, t, hbusy, hdecode, -, -, htorn⟩ := bufAfterReset_cases s
  · simp [hold] at hne
  · rw [htorn] at hne
    exact ⟨hbusy, i, hdecode, by_contra fun hout => hne (tornBuf_read_outside _ _ _ _ hout)⟩

/-- A host register write leaves BUF alone (rule R41). -/
@[simp] theorem regWrite_buf (r : Reg) (w : Word) (s : State) : (regWrite r w s).buf = s.buf := by
  cases r with
  | cmd =>
    simp only [regWrite, writeCmd]
    split <;> rfl
  | _ => rfl

/-- The only host line that changes a byte is a BW to it, inside BUF, while BUSY = 0 (rules R41, R47). -/
theorem HostEffect.changes_buf {l : Line} {s t : State} (h : HostEffect l s t) {a : Nat}
    (hne : t.buf.read? a ≠ s.buf.read? a) :
    s.busy = false ∧ a < s.config.bufSize ∧ ∃ addr e, l = .bufWrite addr e ∧ s.evalHost addr = a := by
  cases h with
  | bufWrite addr e v n g hl hidle haddr =>
    obtain rfl : a = s.evalHost addr := by_contra fun hother => hne (Memory.read?_write_other _ _ hother)
    exact ⟨hidle, haddr, addr, e, hl, rfl⟩
  | write r e w n g => simp at hne
  | host | bufRead | mark => exact absurd rfl hne

/-- The write range does not depend on the turns to come. -/
@[simp] theorem writeRange_withSchedule (i : Instr) (s : State) (ts : List Turn) :
    writeRange i (s.withSchedule ts) = writeRange i s := by cases i <;> rfl

/-- Settles O54, by the cases of what a step can do (`step_effect`). -/
theorem onlyNamedEventsWriteBuf : Obligations.OnlyNamedEventsWriteBuf := by
  unfold Obligations.OnlyNamedEventsWriteBuf
  intro s t a hstep hne
  obtain ⟨-, u, ts, rfl, heffect⟩ := step_effect hstep
  cases heffect with
  | unitIdle _ _ ht => exact absurd (by rw [ht]; rfl) hne
  | unitRuns hturn hbusy i hdecode hexec =>
    obtain ⟨hok, hin⟩ := exec_changes_buf hexec hne
    exact .inr ⟨hbusy, ⟨i, hdecode, by simpa using hin⟩, .inl ⟨hturn, hok⟩⟩
  | unitIllegal _ _ _ _ ht => exact absurd (by rw [ht]; rfl) hne
  | hostDone _ _ ht => exact absurd (by rw [ht]; rfl) hne
  | hostRuns hturn l hline hrun =>
    obtain ⟨hidle, hinside, addr, e, rfl, haddr⟩ := (runLine_effect hrun).changes_buf hne
    exact .inl ⟨hturn, hidle, hinside, addr, e, hline, haddr⟩
  | reset hturn ht =>
    subst ht
    obtain ⟨hbusy, i, hdecode, hin⟩ := resetEvent_changes_buf hne
    exact .inr ⟨hbusy, ⟨i, hdecode, by simpa using hin⟩, .inr hturn⟩

end Sys2Proof.Machine

/-! # Proofs of the encoding statements (spec/30_encoding.md)

The command word both ways (O12, O13, O14), the unit's turn on it (O15), register accesses (O23, O52), the host's control
lines (O46), and the run of a pseudo-instruction's expansion (O45). -/

namespace Sys2Proof.Machine

/-! ## The command word (rules R53, R55, R58, R59) -/

/-- The table of rule R55 read both ways. -/
theorem decodeOp_eq_some_iff (op : Nibble) (i : Instr) : decodeOp op = some i ↔ op = opcode i := by
  revert op
  cases i <;> decide

/-- The unassigned operation codes of rule R59. -/
theorem decodeOp_eq_none_iff (op : Nibble) :
    decodeOp op = none ↔
      op.toNat = 0x0 ∨ op.toNat = 0xC ∨ op.toNat = 0xD ∨ op.toNat = 0xE ∨ op.toNat = 0xF := by
  revert op
  decide

/-- A command word is its two fields, RSV above OP (rule R53). -/
theorem rsvField_append_opField (w : Word) : rsvField w ++ opField w = w := by
  apply BitVec.eq_of_toNat_eq
  simp only [toNat_append_eq, rsvField, opField, toNat_slice]
  omega

theorem rsvField_encode (i : Instr) : rsvField (encode i) = 0#28 := by cases i <;> rfl

theorem opField_encode (i : Instr) : opField (encode i) = opcode i := by cases i <;> rfl

theorem opField_toNat (w : Word) : (opField w).toNat = w.toNat % 16 := by
  rw [opField, toNat_slice]
  omega

/-- RSV = 0 as arithmetic (rule R59). -/
theorem rsvField_eq_zero_iff (w : Word) : rsvField w = 0#28 ↔ w.toNat / 16 = 0 := by
  rw [BitVec.toNat_eq, rsvField, toNat_slice, BitVec.toNat_ofNat]
  omega

/-- A word is a command when its reserved bits are clear and its operation code is the command's. -/
theorem decode_eq_ok_iff_fields (w : Word) (i : Instr) :
    decode w = .ok i ↔ rsvField w = 0#28 ∧ decodeOp (opField w) = some i := by
  unfold decode
  by_cases hrsv : rsvField w = 0#28
  · cases hop : decodeOp (opField w) <;> simp [hrsv]
  · simp [hrsv]

/-- The words of a command: its encoding and no other. -/
theorem decode_eq_ok_iff (w : Word) (i : Instr) : decode w = .ok i ↔ w = encode i := by
  rw [decode_eq_ok_iff_fields, decodeOp_eq_some_iff]
  constructor
  · rintro ⟨hrsv, hop⟩
    rw [← rsvField_append_opField w, hrsv, hop, encode]
  · rintro rfl
    exact ⟨rsvField_encode i, opField_encode i⟩

@[simp] theorem decode_encode (i : Instr) : decode (encode i) = .ok i := (decode_eq_ok_iff _ i).2 rfl

/-- Settles O12: the words that decode to a command are its encoding and no other (`decode_eq_ok_iff`). -/
theorem decodeEncodeAgree : Obligations.DecodeEncodeAgree := by
  unfold Obligations.DecodeEncodeAgree
  exact fun i _ => ⟨decode_encode i, fun w => (decode_eq_ok_iff w i).1⟩

/-- The illegal words of rule R59, by field. -/
theorem decode_ne_ok_iff_fields (w : Word) :
    (∀ i, decode w ≠ .ok i) ↔ rsvField w ≠ 0#28 ∨ decodeOp (opField w) = none := by
  simp only [ne_eq, decode_eq_ok_iff_fields, not_and, Option.eq_none_iff_forall_ne_some, imp_iff_not_or, forall_or_left]

/-- Settles O13: the two fields as arithmetic, then acceptance (`writeCmd_of_idle`) and the unit's step on an illegal word
(`unitStep_of_illegal`). -/
theorem illegalWordsCompleteWithErrIllegal : Obligations.IllegalWordsCompleteWithErrIllegal := by
  unfold Obligations.IllegalWordsCompleteWithErrIllegal
  refine fun w => ⟨?_, fun hillegal s hidle => ?_⟩
  · rw [decode_ne_ok_iff_fields, ne_eq, rsvField_eq_zero_iff, decodeOp_eq_none_iff, opField_toNat]
  · have haccept : regWrite .cmd w s = s.accept w := writeCmd_of_idle hidle w
    have hshape := execShape_complete (s.accept w) .errIllegal
    rw [haccept]
    exact ⟨rfl, rfl, _, unitStep_of_illegal (s := s.accept w) hillegal, hshape.completesWith,
      hshape.sameResults_of_failed (by decide)⟩

/-- Settles O14: the legal words are encodings (`decode_encode`). -/
theorem decodeOfSpecWords : Obligations.DecodeOfSpecWords := by
  unfold Obligations.DecodeOfSpecWords
  exact ⟨decode_encode .expandByte, decode_encode .decodeFloatDcba, decode_encode .bswap32, decode_encode .hexToByte,
    rfl, rfl, rfl, rfl⟩

/-! ## The unit's turn (rule R92) -/

/-- A unit turn runs the latched command. -/
theorem unitTurn_of_decode {s : State} {i : Instr} (hbusy : s.busy = true) (hdecode : decode s.cmdl = .ok i) :
    unitTurn s = exec i s := by
  simp only [unitTurn, hbusy, if_true, unitStep, hdecode]

/-- With the turns used up and BUSY = 1 the step is a unit turn (log 4), which runs the latched command. -/
theorem step_of_busy {s : State} {i : Instr} (hfault : s.hostFault = none) (hsched : s.schedule = [])
    (hbusy : s.busy = true) (hdecode : decode s.cmdl = .ok i) : step s = exec i s := by
  rw [← unitTurn_of_decode hbusy hdecode]
  simp [step, agentStep, nextTurn, takeTurn, hfault, hsched, hbusy]

/-- Settles O15: the step is a unit turn, by the empty schedule (`step_of_busy`) or by its head (`step_of_schedule`). -/
theorem stepRunsDecodedCommand : Obligations.StepRunsDecodedCommand := by
  unfold Obligations.StepRunsDecodedCommand
  refine fun s i hfault hbusy hdecode _ => ⟨fun hsched => ?_, fun rest hsched => ?_⟩
  · exact step_of_busy hfault hsched hbusy hdecode
  · exact (step_of_schedule hfault hsched).trans (unitTurn_of_decode (s := s.withSchedule rest) hbusy hdecode)

/-! ## Register accesses (rules R18, R52, R62) -/

/-- The accesses the block decodes are the 32-bit ones at a register's offset (rules R18, R52). -/
theorem decodeAccess_eq_some_iff {width off : Nat} {r : Reg} :
    decodeAccess width off = some r ↔ width = 32 ∧ off = r.offset := by
  refine ⟨decodeAccess_some, ?_⟩
  rintro ⟨rfl, rfl⟩
  cases r <;> rfl

@[simp] theorem decodeAccess_offset (r : Reg) : decodeAccess 32 r.offset = some r :=
  decodeAccess_eq_some_iff.2 ⟨rfl, rfl⟩

/-- The eight offsets of rule R18. -/
theorem Reg.offset_mem (r : Reg) : r.offset ∈ [0x00, 0x04, 0x08, 0x0C, 0x10, 0x14, 0x18, 0x1C] := by
  cases r <;> decide

/-- No other offset and no other width is decoded (rule R52). -/
theorem decodeAccess_eq_none {width off : Nat}
    (h : ¬ (width = 32 ∧ off ∈ [0x00, 0x04, 0x08, 0x0C, 0x10, 0x14, 0x18, 0x1C])) : decodeAccess width off = none := by
  refine Option.eq_none_iff_forall_ne_some.2 fun r hr => h ?_
  obtain ⟨rfl, rfl⟩ := decodeAccess_some hr
  exact ⟨rfl, r.offset_mem⟩

/-- A host write of a register: its effect with the word the access carries. -/
theorem runLine_regWrite (r : Reg) (e : Expr) (s : State) :
    runLine (.regWrite 32 r.offset e) s =
      .next (regWrite r (s.busWord (s.evalHost e)).1 (s.busWord (s.evalHost e)).2).hostNext := by
  simp only [runLine, runRegWrite, decodeAccess_offset]

/-- A host write of a register carries a value that fits as it is (rule R52). -/
theorem runLine_regWrite_fits (r : Reg) {e : Expr} {s : State} (h : s.evalHost e < 2 ^ 32) :
    runLine (.regWrite 32 r.offset e) s = .next (regWrite r (BitVec.ofNat 32 (s.evalHost e)) s).hostNext := by
  rw [runLine_regWrite, State.busWord_fits h]

/-- A host read of a register: the value is noted, and bound if the line names a variable. -/
theorem runLine_regRead (r : Reg) (into : Option Nat) (s : State) :
    runLine (.regRead 32 r.offset into) s =
      .next ((s.hostNote (.reg r.offset (regRead r s))).hostBindInto into (regRead r s).toNat).hostNext := by
  simp only [runLine, runRegRead, decodeAccess_offset]

/-- Settles O23: an access is refused where nothing is decoded (`decodeAccess_eq_none`), and is the register's own access
at its offset. -/
theorem registerAccessDecoding : Obligations.RegisterAccessDecoding := by
  unfold Obligations.RegisterAccessDecoding
  refine fun s width off v into => ⟨fun hundecoded => ?_, fun r hwidth hmem => ?_⟩
  · have hnone := decodeAccess_eq_none hundecoded
    simp only [runLine, runRegWrite, runRegRead, hnone, and_self]
  · obtain rfl : off = r.offset := by
      cases r <;> simpa [Reg.offset] using hmem
    subst hwidth
    exact ⟨runLine_regWrite_fits r, runLine_regRead r none s, fun x => runLine_regRead r (some x) s⟩

/-- Settles O52: the access carries a fresh free value (`State.busWord_wide`, `State.busByte_wide`), and is otherwise the
access of any value. -/
theorem wideHostValuesRun : Obligations.WideHostValuesRun := by
  unfold Obligations.WideHostValuesRun
  refine fun s e => ⟨fun hwide r => ⟨_, rfl, ?_⟩, fun hwide addr hidle haddr => ?_⟩
  · rw [runLine_regWrite, State.busWord_wide hwide]
  · have hrun := runLine_bufWrite (b := e) hidle haddr
    rw [State.busByte_wide hwide] at hrun
    exact ⟨_, hrun, by simp, fun a ha => by simp [ha], rfl⟩

/-! ## The host's control lines (rule R62) -/

/-- A label is found at the first line that holds it (log 11). -/
theorem findLabel_append_label {l : Nat} {before : List Line} (after : List Line) (k : Nat)
    (h : .label l ∉ before) : findLabel l (before ++ .label l :: after) k = some (k + before.length) := by
  induction before generalizing k with
  | nil => simp [findLabel]
  | cons line rest ih =>
    obtain ⟨hline, hrest⟩ := not_or.1 (mt List.mem_cons.2 h)
    have hnext : findLabel l (rest ++ .label l :: after) (k + 1) = some (k + (rest.length + 1)) := by
      rw [ih (k + 1) hrest]
      congr 1
      omega
    cases line with
    | label m =>
      have hne : m ≠ l := fun heq => hline (heq ▸ rfl)
      simpa [findLabel, hne] using hnext
    | _ => simpa [findLabel] using hnext

/-- A jump goes to the first line that holds its label. -/
theorem runLine_goto {l : Nat} {before after : List Line} {s : State}
    (hscript : s.host.script = before ++ .label l :: after) (hfirst : .label l ∉ before) :
    runLine (.goto l) s = .next { s with host := { s.host with pc := before.length } } := by
  simp only [runLine, runGoto, hscript, findLabel_append_label after 0 hfirst, Nat.zero_add]

/-- A jump to a label the script does not have is refused (log 11). -/
theorem runLine_goto_missing {l : Nat} {s : State} (h : .label l ∉ s.host.script) :
    runLine (.goto l) s = .refused .scriptLabelUnknown := runGoto_refused_iff.2 ⟨h, rfl⟩

/-- A branch whose condition is not 0 is the jump. -/
theorem runLine_branch_taken {cond : Expr} {s : State} (h : s.evalHost cond ≠ 0) (l : Nat) :
    runLine (.branch cond l) s = runLine (.goto l) s := if_neg h

/-- A branch whose condition is 0 goes on. -/
theorem runLine_branch_passed {cond : Expr} {s : State} (h : s.evalHost cond = 0) (l : Nat) :
    runLine (.branch cond l) s = .next s.hostNext := if_pos h

/-- WAIT goes on once BUSY = 0; STATUS is noted. -/
theorem runLine_wait_of_idle {s : State} (h : s.busy = false) :
    runLine .wait s = .next (s.hostNote (.reg 0x1C (regRead .status s))).hostNext := by
  simp [runLine, runWait, h, regRead, Reg.offset]

/-- WAIT stays while BUSY = 1; STATUS is noted. -/
theorem runLine_wait_of_busy {s : State} (h : s.busy = true) :
    runLine .wait s = .next (s.hostNote (.reg 0x1C (regRead .status s))) := by
  simp [runLine, runWait, h, regRead, Reg.offset]

/-- Settles O46, a line at a time. -/
theorem hostControlLines : Obligations.HostControlLines := by
  unfold Obligations.HostControlLines
  refine fun s => ⟨runLine_wait_of_busy, runLine_wait_of_idle, fun x e => ⟨_, rfl, ?_, fun y hy => ?_, rfl⟩,
    fun l => rfl, fun l before after hscript hfirst => ?_, fun l hmissing => ?_,
    fun cond l hzero => runLine_branch_passed hzero l⟩
  · simp [varValue_putKey]
  · simp [varValue_putKey, hy]
  · have hgoto := runLine_goto hscript hfirst
    exact ⟨hgoto, fun cond hne => (runLine_branch_taken hne l).trans hgoto⟩
  · have hgoto := runLine_goto_missing hmissing
    exact ⟨hgoto, fun cond hne => (runLine_branch_taken hne l).trans hgoto⟩

/-! ## The expansion of a pseudo-instruction (rule R63)

The host runs the lines ahead of it one step each: the operand writes, by induction on the operands, then the CMD write
and, after the unit's step, WAIT. -/

/-- A register write is the block's: the fault mark, the schedule and the host stay. -/
theorem regWrite_keepsOutside (r : Reg) (w : Word) (s : State) :
    (regWrite r w s).hostFault = s.hostFault ∧ (regWrite r w s).schedule = s.schedule ∧
      (regWrite r w s).host = s.host := by
  cases r with
  | cmd =>
    simp only [regWrite, writeCmd]
    split <;> exact ⟨rfl, rfl, rfl⟩
  | _ => exact ⟨rfl, rfl, rfl⟩

/-- The lines the host has still to run, were it never to jump. -/
def State.ahead (s : State) : List Line := s.host.script.drop s.host.pc

theorem State.ahead_of_host_eq {s t : State} (h : t.host = s.host) : t.ahead = s.ahead := by
  rw [State.ahead, State.ahead, h]

/-- The first line ahead is the host's next line. -/
theorem State.hostLine?_of_ahead {s : State} {l : Line} {rest : List Line} (h : s.ahead = l :: rest) :
    s.hostLine? = some l := by
  rw [State.hostLine?, ← List.head?_drop, ← State.ahead, h, List.head?_cons]

/-- Going on leaves the rest of the lines ahead. -/
theorem State.ahead_hostNext {s : State} {l : Line} {rest : List Line} (h : s.ahead = l :: rest) :
    s.hostNext.ahead = rest := by
  rw [State.ahead, State.hostNext_host, ← List.tail_drop, ← State.ahead, h, List.tail_cons]

/-- The host runs its next line at the next step: no mark, BUSY = 0 and the turns used up (log 4). -/
structure State.HostRuns (s : State) : Prop where
  unmarked : s.hostFault = none
  idle : s.busy = false
  noTurns : s.schedule = []

theorem State.HostRuns.step_eq {s : State} (hs : s.HostRuns) {l : Line} {rest : List Line} (h : s.ahead = l :: rest) :
    step s = runLine l s := by
  rw [step_of_idle hs.unmarked hs.noTurns hs.idle, hostTurn_of_line (State.hostLine?_of_ahead h)]

/-- The host writes a literal to a register. -/
theorem State.HostRuns.step_wr {s : State} (hs : s.HostRuns) {r : Reg} {n : Nat} {rest : List Line} (hn : n < 2 ^ 32)
    (h : s.ahead = Line.wr r (.lit n) :: rest) : step s = .next (regWrite r (BitVec.ofNat 32 n) s).hostNext :=
  (hs.step_eq h).trans (runLine_regWrite_fits r hn)

/-- The host writes a command's word to CMD, which is accepted (rule R20). -/
theorem State.HostRuns.step_wr_cmd {s : State} (hs : s.HostRuns) {i : Instr} {rest : List Line}
    (h : s.ahead = Line.wr .cmd (.lit (encode i).toNat) :: rest) : step s = .next (s.accept (encode i)).hostNext := by
  rw [hs.step_wr (encode i).isLt h, BitVec.ofNat_toNat, BitVec.setWidth_eq, regWrite, writeCmd_of_idle hs.idle]

/-- A write of a register other than CMD starts nothing. -/
theorem State.HostRuns.afterWrite {s : State} (hs : s.HostRuns) {r : Reg} (hr : r ≠ .cmd) (w : Word) :
    (regWrite r w s).hostNext.HostRuns := by
  obtain ⟨-, hbusy, -⟩ := regWrite_keepsStatus (r := r) (s := s) (absurd · hr) w
  obtain ⟨hfault, hsched, -⟩ := regWrite_keepsOutside r w s
  exact ⟨hfault.trans hs.unmarked, hbusy.trans hs.idle, hsched.trans hs.noTurns⟩

/-- The state after a host write of each value to its register, in order. -/
def writeRegs : List Reg → List Nat → State → State
  | r :: regs, n :: ops, s => writeRegs regs ops (regWrite r (BitVec.ofNat 32 n) s).hostNext
  | [], _, s => s
  | _, [], s => s

/-- The operand writes of an expansion take one step each, and leave the host at the lines after them. -/
theorem runSteps_writeOperands {regs : List Reg} {ops : List Nat} {s : State} {rest : List Line} (k : Nat)
    (hs : s.HostRuns) (hregs : .cmd ∉ regs) (hlen : ops.length ≤ regs.length) (hops : ∀ n ∈ ops, n < 2 ^ 32)
    (hahead : s.ahead = writeOperands regs (ops.map .lit) ++ rest) :
    (writeRegs regs ops s).HostRuns ∧ (writeRegs regs ops s).ahead = rest ∧
      runSteps (ops.length + k) s = runSteps k (writeRegs regs ops s) := by
  induction regs generalizing ops s with
  | nil =>
    obtain rfl : ops = [] := by simpa using hlen
    exact ⟨hs, hahead, by simp [writeRegs]⟩
  | cons r regs ih =>
    cases ops with
    | nil => exact ⟨hs, hahead, by simp [writeRegs]⟩
    | cons n ops =>
      obtain ⟨hr, hregs⟩ := not_or.1 (mt List.mem_cons.2 hregs)
      obtain ⟨hn, hops⟩ := List.forall_mem_cons.1 hops
      obtain ⟨-, -, hhost⟩ := regWrite_keepsOutside r (BitVec.ofNat 32 n) s
      have hfirst : s.ahead = Line.wr r (.lit n) :: (writeOperands regs (ops.map .lit) ++ rest) := hahead
      have hnext : (regWrite r (BitVec.ofNat 32 n) s).hostNext.ahead = writeOperands regs (ops.map .lit) ++ rest :=
        State.ahead_hostNext ((State.ahead_of_host_eq hhost).trans hfirst)
      obtain ⟨hruns, hrest, hsteps⟩ := ih (hs.afterWrite (Ne.symm hr) _) hregs (by simpa using hlen) hops hnext
      refine ⟨hruns, hrest, ?_⟩
      rw [List.length_cons, Nat.add_right_comm, runSteps_succ_next (hs.step_wr hn hfirst), hsteps]
      rfl

/-- Up to four values written to OPA..OPD in order: the others keep theirs. -/
theorem writeRegs_operands {ops : List Nat} (h : ops.length ≤ 4) (s : State) :
    writeRegs [.opa, .opb, .opc, .opd] ops s =
      { s with
        opA := (ops[0]?.map (BitVec.ofNat 32)).getD s.opA, opB := (ops[1]?.map (BitVec.ofNat 32)).getD s.opB
        opC := (ops[2]?.map (BitVec.ofNat 32)).getD s.opC, opD := (ops[3]?.map (BitVec.ofNat 32)).getD s.opD
        host := { s.host with pc := s.host.pc + ops.length } } := by
  match ops, h with
  | [], _ => rfl
  | [_], _ => rfl
  | [_, _], _ => rfl
  | [_, _, _], _ => rfl
  | [_, _, _, _], _ => rfl

/-- A pseudo-instruction names at most the four operands A, B, C, D (rule R61). -/
theorem Pseudo.length_operands_le (p : Pseudo) : p.operands.length ≤ 4 := by cases p <;> simp [Pseudo.operands]

theorem length_writeOperands (regs : List Reg) (es : List Expr) :
    (writeOperands regs es).length = min regs.length es.length := by
  induction regs generalizing es with
  | nil => simp [writeOperands]
  | cons r regs ih => cases es <;> simp [writeOperands, ih]

/-- An expansion has a line for each operand, the CMD write and WAIT (rule R63). -/
theorem Pseudo.length_expand (p : Pseudo) : p.expand.length = p.operands.length + 2 := by
  have hle := p.length_operands_le
  simp only [Pseudo.expand, List.length_append, length_writeOperands, List.length_cons, List.length_nil]
  omega

/-- The CMD write, the unit's step and WAIT: from a host at the last two lines of an expansion, three steps run the command
on the accepted state and note STATUS after it (rules R63, R92). -/
theorem runSteps_command {s : State} {i : Instr} {rest : List Line} (hs : s.HostRuns)
    (hahead : s.ahead = Line.wr .cmd (.lit (encode i).toNat) :: .wait :: rest) :
    ∃ t, exec i (s.accept (encode i)).hostNext = .next t ∧
      t.host = (s.accept (encode i)).hostNext.host ∧
      runSteps 3 s = .next (t.hostNote (.reg 0x1C (regRead .status t))).hostNext := by
  obtain ⟨t, hexec, hcomp, -⟩ := everyCommandCompletesPrecisely i (s.accept (encode i)).hostNext
  have hunit : step (s.accept (encode i)).hostNext = .next t :=
    (step_of_busy (s := (s.accept (encode i)).hostNext) hs.unmarked hs.noTurns rfl (decode_encode i)).trans hexec
  have hready : t.HostRuns :=
    ⟨hcomp.frame.hostFault.trans hs.unmarked, hcomp.busy, hcomp.frame.schedule.trans hs.noTurns⟩
  have hwait : t.ahead = .wait :: rest :=
    (State.ahead_of_host_eq hcomp.frame.host).trans (State.ahead_hostNext (s := s.accept (encode i)) hahead)
  refine ⟨t, hexec, hcomp.frame.host, ?_⟩
  rw [runSteps_succ_next (hs.step_wr_cmd hahead), runSteps_succ_next hunit,
    runSteps_succ_next ((hready.step_eq hwait).trans (runLine_wait_of_idle hready.idle)), runSteps_zero]

/-- Settles O45: the operand writes (`runSteps_writeOperands`), then the command (`runSteps_command`). -/
theorem pseudoExpansionRunsCommand : Obligations.PseudoExpansionRunsCommand := by
  unfold Obligations.PseudoExpansionRunsCommand
  intro s p ops before after hfault hidle hsched hoperands hfits hscript hpc
  have hlen : p.operands.length = ops.length := by rw [hoperands, List.length_map]
  have hfour : ops.length ≤ 4 := hlen ▸ p.length_operands_le
  have hahead : s.ahead = writeOperands [.opa, .opb, .opc, .opd] (ops.map .lit) ++
      Line.wr .cmd (.lit (encode p.instr).toNat) :: .wait :: after := by
    rw [State.ahead, hscript, hpc, List.append_assoc, List.drop_left, Pseudo.expand, hoperands, List.append_assoc]
    rfl
  obtain ⟨hruns, hrest, hsteps⟩ :=
    runSteps_writeOperands 3 ⟨hfault, hidle, hsched⟩ (by decide) hfour hfits hahead
  obtain ⟨t, hexec, hhost, hcommand⟩ := runSteps_command hruns hrest
  rw [writeRegs_operands hfour] at hexec hhost hcommand hsteps
  refine ⟨_, t, hexec, ?_, ?_⟩
  · rw [← hpc]
    rfl
  · rw [hsteps, hcommand, p.length_expand, hlen, ← hpc]
    simp only [State.hostNext, State.hostNote, hhost]
    rfl

end Sys2Proof.Machine

/-! # Proofs of the bit codec statements (spec/40_bit_codec.md)

EXPAND_BYTE, EXPAND_BYTES and PACK_BITS one branch at a time (O1, O2, O3), and the laws that packing gives back what
expanding wrote (O38, O39). -/

namespace Sys2Proof.Machine

/-- A command that completes with a code and does nothing else fails with it (rules R12, R92). -/
theorem failsWith_of_exec_eq_complete {i : Instr} {c : ResultCode} {s : State}
    (h : exec i s = .next (s.complete c)) : FailsWith i c s :=
  ⟨_, h, (execShape_complete s c).completesWith, fun _ => rfl, rfl, rfl⟩

/-- The code a failing command leaves. -/
theorem FailsWith.code_eq {i : Instr} {c : ResultCode} {s t : State} (h : FailsWith i c s) (hexec : exec i s = .next t) :
    t.code = c := by
  obtain ⟨t', hexec', hcomp, -⟩ := h
  obtain rfl : t' = t := by rw [hexec'] at hexec; injection hexec
  exact hcomp.code

section Branches

variable {s : State}

/-! ## EXPAND_BYTE (rule R68) -/

theorem exec_expandByte_errRange (hwide : 2 ^ 8 ≤ s.oplC.toNat) : exec .expandByte s = .next (s.complete .errRange) := by
  simp only [exec, execExpandByte, fitsWidth_false_iff.2 hwide, Bool.not_false, if_true]

theorem exec_expandByte_errAddr (hfits : s.oplC.toNat < 2 ^ 8)
    (hout : s.config.bufSize < bufAddr s.oplA s.oplB + 8) : exec .expandByte s = .next (s.complete .errAddr) := by
  simp only [exec, execExpandByte, fitsWidth_iff.2 hfits, rangeInBuf_false_iff.2 ⟨by decide, hout⟩, Bool.not_true,
    Bool.not_false, Bool.false_eq_true, if_false, if_true]

theorem exec_expandByte_ok (hfits : s.oplC.toNat < 2 ^ 8) (hin : bufAddr s.oplA s.oplB + 8 ≤ s.config.bufSize) :
    exec .expandByte s = .next ((expandByteLoop (bufAddr s.oplA s.oplB) s.oplC 8 s).complete .ok) := by
  simp only [exec, execExpandByte, fitsWidth_iff.2 hfits, rangeInBuf_iff.2 (.inr hin), Bool.not_true,
    Bool.false_eq_true, if_false]

/-! ## EXPAND_BYTES (rule R69) -/

theorem exec_expandBytes_zero (hzero : s.oplC.toNat = 0) : exec .expandBytes s = .next (s.complete .ok) := by
  simp only [exec, execExpandBytes, hzero, if_true]

theorem exec_expandBytes_errAddr (hcount : s.oplC.toNat ≠ 0)
    (hout : s.config.bufSize < bufAddr s.oplA s.oplB + s.oplC.toNat ∨
      s.config.bufSize < s.oplD.toNat + ceil8 s.oplC.toNat) :
    exec .expandBytes s = .next (s.complete .errAddr) := by
  have hrange : (!rangeInBuf s.config.bufSize (bufAddr s.oplA s.oplB) s.oplC.toNat ||
      !rangeInBuf s.config.bufSize s.oplD.toNat (ceil8 s.oplC.toNat)) = true := by
    rcases hout with hdst | hsrc
    · rw [rangeInBuf_false_iff.2 ⟨hcount, hdst⟩, Bool.not_false, Bool.true_or]
    · rw [rangeInBuf_false_iff.2 ⟨(ceil8_pos hcount).ne', hsrc⟩, Bool.not_false, Bool.or_true]
  simp only [exec, execExpandBytes, hcount, hrange, if_false, if_true]

section InRange

variable (hcount : s.oplC.toNat ≠ 0) (hdst : bufAddr s.oplA s.oplB + s.oplC.toNat ≤ s.config.bufSize)
  (hsrc : s.oplD.toNat + ceil8 s.oplC.toNat ≤ s.config.bufSize)
include hcount hdst hsrc

/-- Past the range check, the overlap test decides. -/
theorem exec_expandBytes_inRange :
    exec .expandBytes s = .next (
      if rangesShareByte (bufAddr s.oplA s.oplB) s.oplC.toNat s.oplD.toNat (ceil8 s.oplC.toNat) then
        s.complete .errOverlap
      else (expandBytesLoop (bufAddr s.oplA s.oplB) s.oplD.toNat s.oplC.toNat s).complete .ok) := by
  simp only [exec, execExpandBytes, hcount, rangeInBuf_iff.2 (.inr hdst), rangeInBuf_iff.2 (.inr hsrc), Bool.not_true,
    Bool.or_self, Bool.false_eq_true, if_false]

theorem exec_expandBytes_errOverlap
    (hshare : ∃ a, (bufAddr s.oplA s.oplB ≤ a ∧ a < bufAddr s.oplA s.oplB + s.oplC.toNat) ∧
      (s.oplD.toNat ≤ a ∧ a < s.oplD.toNat + ceil8 s.oplC.toNat)) :
    exec .expandBytes s = .next (s.complete .errOverlap) := by
  rw [exec_expandBytes_inRange hcount hdst hsrc,
    if_pos ((rangesShareByte_iff (Nat.pos_of_ne_zero hcount) (ceil8_pos hcount)).2 hshare)]

theorem exec_expandBytes_ok
    (hdisjoint : ¬ ∃ a, (bufAddr s.oplA s.oplB ≤ a ∧ a < bufAddr s.oplA s.oplB + s.oplC.toNat) ∧
      (s.oplD.toNat ≤ a ∧ a < s.oplD.toNat + ceil8 s.oplC.toNat)) :
    exec .expandBytes s =
      .next ((expandBytesLoop (bufAddr s.oplA s.oplB) s.oplD.toNat s.oplC.toNat s).complete .ok) := by
  rw [exec_expandBytes_inRange hcount hdst hsrc,
    if_neg (mt (rangesShareByte_iff (Nat.pos_of_ne_zero hcount) (ceil8_pos hcount)).1 hdisjoint)]

end InRange

/-! ## PACK_BITS (rule R70) -/

theorem exec_packBits_errCount (hmany : 8 < s.oplC.toNat) : exec .packBits s = .next (s.complete .errCount) := by
  simp only [exec, execPackBits, gt_iff_lt, hmany, if_true]

theorem exec_packBits_errAddr (hcount : s.oplC.toNat ≤ 8) (hpos : 0 < s.oplC.toNat)
    (hout : s.config.bufSize < bufAddr s.oplA s.oplB + s.oplC.toNat) :
    exec .packBits s = .next (s.complete .errAddr) := by
  simp only [exec, execPackBits, gt_iff_lt, hcount.not_gt, rangeInBuf_false_iff.2 ⟨hpos.ne', hout⟩, Bool.not_false,
    if_false, if_true]

theorem exec_packBits_ok (hcount : s.oplC.toNat ≤ 8)
    (hin : s.oplC.toNat = 0 ∨ bufAddr s.oplA s.oplB + s.oplC.toNat ≤ s.config.bufSize) :
    exec .packBits s = .next (((packBitsLoop (bufAddr s.oplA s.oplB) s.oplC.toNat s).2.setRes0
      ((packBitsLoop (bufAddr s.oplA s.oplB) s.oplC.toNat s).1.setWidth 32)).complete .ok) := by
  simp only [exec, execPackBits, gt_iff_lt, hcount.not_gt, rangeInBuf_iff.2 hin, Bool.not_true, Bool.false_eq_true,
    if_false]

end Branches

/-! ## The commands -/

/-- Settles O1: the three branches of the command, the entries by `expandByteLoop_read`. -/
theorem expandByteWritesEightFlags : Obligations.ExpandByteWritesEightFlags := by
  unfold Obligations.ExpandByteWritesEightFlags
  refine ⟨decode_encode .expandByte, fun s =>
    ⟨fun hwide => failsWith_of_exec_eq_complete (exec_expandByte_errRange hwide),
      fun hfits hout => failsWith_of_exec_eq_complete (exec_expandByte_errAddr hfits hout), fun hfits hin => ?_⟩⟩
  have hexec := exec_expandByte_ok hfits hin
  obtain ⟨houtside, h0, h1, -⟩ := exec_writesOnlyRange hexec
  refine ⟨_, hexec, exec_completesWith hexec, h0 rfl, h1 rfl, fun i hi => ?_, houtside⟩
  have hread := expandByteLoop_read (bufAddr s.oplA s.oplB) s.oplC 8 s (bufAddr s.oplA s.oplB + i)
  rw [if_pos ⟨by omega, by omega⟩, Nat.add_sub_cancel_left] at hread
  exact hread

/-- Settles O2: the four branches of the command, the entries by `expandBytesLoop_read_bit` and
`expandBytesLoop_read_flag`. -/
theorem expandBytesWritesFlags : Obligations.ExpandBytesWritesFlags := by
  unfold Obligations.ExpandBytesWritesFlags
  refine ⟨decode_encode .expandBytes, fun s =>
    ⟨fun hzero => ⟨_, exec_expandBytes_zero hzero, (execShape_complete s .ok).completesWith, fun _ => rfl, rfl, rfl⟩,
      fun hcount hout => failsWith_of_exec_eq_complete (exec_expandBytes_errAddr hcount hout),
      fun hcount hdst hsrc hshare => failsWith_of_exec_eq_complete (exec_expandBytes_errOverlap hcount hdst hsrc hshare),
      fun hcount hdst hsrc hdisjoint => ?_⟩⟩
  have hexec := exec_expandBytes_ok hcount hdst hsrc hdisjoint
  obtain ⟨houtside, h0, h1, -⟩ := exec_writesOnlyRange hexec
  refine ⟨_, hexec, exec_completesWith hexec, h0 rfl, h1 rfl, fun j b hj hb => ?_, fun j hj => ?_, houtside⟩
  · have hkept : s.oplD.toNat + j / 8 < bufAddr s.oplA s.oplB ∨
        bufAddr s.oplA s.oplB + s.oplC.toNat ≤ s.oplD.toNat + j / 8 := by
      by_contra hshared
      obtain ⟨hlo, hhi⟩ := not_or.1 hshared
      exact hdisjoint ⟨s.oplD.toNat + j / 8, ⟨Nat.le_of_not_lt hlo, Nat.lt_of_not_le hhi⟩, by omega, by omega⟩
    exact expandBytesLoop_read_bit _ _ _ s hj hb hkept
  · obtain ⟨b, hread⟩ := expandBytesLoop_read_flag (bufAddr s.oplA s.oplB) s.oplD.toNat _ s hj
    exact (flagByte_cases b).imp (hread.trans <| congrArg some ·) (hread.trans <| congrArg some ·)

/-- Settles O3: the three branches of the command, the bits by `packBitsLoop_bit`. -/
theorem packBitsGathersEntries : Obligations.PackBitsGathersEntries := by
  unfold Obligations.PackBitsGathersEntries
  refine ⟨decode_encode .packBits, fun s =>
    ⟨fun hmany => failsWith_of_exec_eq_complete (exec_packBits_errCount hmany),
      fun hcount hpos hout => failsWith_of_exec_eq_complete (exec_packBits_errAddr hcount hpos hout),
      fun hcount hin => ?_⟩⟩
  have hexec := exec_packBits_ok hcount hin
  obtain ⟨houtside, -, h1, -⟩ := exec_writesOnlyRange hexec
  have hbits := fun i => packBitsLoop_bit (bufAddr s.oplA s.oplB) s.oplC.toNat s i hcount
  refine ⟨_, hexec, exec_completesWith hexec, fun a => houtside a (by simp [writeRange]), h1 rfl, fun i e hi he => ?_,
    fun i hi => ?_⟩ <;> simp only [State.complete_res0, State.setRes0_res0, BitVec.getLsbD_setWidth]
  · rw [(hbits i).2 e hi he, decide_eq_true (by omega : i < 32), Bool.true_and]
  · rw [(hbits i).1 hi, Bool.and_false]

/-! ## Packing gives back what expanding wrote (rules R71, R72) -/

/-- PACK_BITS of entries that hold the low bits of a number returns them. -/
theorem exec_packBits_of_flags {s : State} {v : Nat} (hcount : s.oplC.toNat ≤ 8)
    (hin : s.oplA.toNat + s.oplB.toNat + s.oplC.toNat ≤ s.config.bufSize)
    (hflags : ∀ i < s.oplC.toNat, s.buf.read? (s.oplA.toNat + s.oplB.toNat + i) = some (flagByte (v.testBit i))) :
    ∃ t, exec .packBits s = .next t ∧ t.code = .ok ∧ t.res0.toNat = v % 2 ^ s.oplC.toNat := by
  obtain ⟨-, -, hpack⟩ := packBitsGathersEntries.2 s
  obtain ⟨t, hexec, hcomp, -, -, hbelow, habove⟩ := hpack hcount (.inr hin)
  refine ⟨t, hexec, hcomp.code, Nat.eq_of_testBit_eq fun i => ?_⟩
  rw [Nat.testBit_mod_two_pow, ← BitVec.getLsbD]
  by_cases hi : i < s.oplC.toNat
  · rw [hbelow i _ hi (hflags i hi), decide_eq_true hi, Bool.true_and]
    simp only [flagByte_ne_zero, Bool.decide_eq_true]
  · rw [habove i (by omega), decide_eq_false hi, Bool.false_and]

/-- Settles O38: EXPAND_BYTE writes the byte's bits (O1), and PACK_BITS returns them (`exec_packBits_of_flags`). -/
theorem expandThenPackReturnsByte : Obligations.ExpandThenPackReturnsByte := by
  unfold Obligations.ExpandThenPackReturnsByte
  rintro v base s₁ s₂ hv hin rfl rfl
  obtain ⟨-, -, hexpand⟩ := expandByteWritesEightFlags.2 s₁
  obtain ⟨t₁, hexec, hcomp, -, -, hentries, -⟩ := hexpand hv hin
  refine ⟨t₁, hexec, hcomp.code, fun hbuf hconfig hbase hcount => ?_⟩
  obtain ⟨t₂, hexec₂, hok, hres⟩ := exec_packBits_of_flags (s := s₂) (v := s₁.oplC.toNat) (by omega)
    (by rw [hbase, hcount, hconfig]; exact hin)
    (by rw [hbuf, hbase, hcount]; exact hentries)
  exact ⟨t₂, hexec₂, hok, by rw [hres, hcount, Nat.mod_eq_of_lt (b := 2 ^ 8) hv]⟩

/-- EXPAND_BYTES that succeeds with a non-zero count has its entries inside BUF, and each holds its bit of a written source
byte (rule R69). -/
theorem exec_expandBytes_entries {s t : State} (h : exec .expandBytes s = .next t) (hok : t.code = .ok)
    (hcount : s.oplC.toNat ≠ 0) :
    s.oplA.toNat + s.oplB.toNat + s.oplC.toNat ≤ s.config.bufSize ∧
      ∀ j b, j < s.oplC.toNat → s.buf.read? (s.oplD.toNat + j / 8) = some b →
        t.buf.read? (s.oplA.toNat + s.oplB.toNat + j) = some (flagByte (b.getLsbD (j % 8))) := by
  obtain ⟨-, haddr, hoverlap, hexpand⟩ := expandBytesWritesFlags.2 s
  have hno : ∀ c, c ≠ .ok → ¬ FailsWith .expandBytes c s := fun c hc hfail => hc ((hfail.code_eq h).symm.trans hok)
  have hranges := mt (haddr hcount) (hno _ (by decide))
  obtain ⟨hdst, hsrc⟩ := (not_or.1 hranges).imp Nat.le_of_not_lt Nat.le_of_not_lt
  have hdisjoint := mt (hoverlap hcount hdst hsrc) (hno _ (by decide))
  obtain ⟨t', hexec, -, -, -, hentries, -⟩ := hexpand hcount hdst hsrc hdisjoint
  obtain rfl : t' = t := by rw [hexec] at h; injection h
  exact ⟨hdst, hentries⟩

/-- Settles O39: entry `8 * k + i` holds bit `i` of source byte `k` (`exec_expandBytes_entries`), and PACK_BITS returns the
bits of the group (`exec_packBits_of_flags`). -/
theorem expandBytesThenPackReturnsBytes : Obligations.ExpandBytesThenPackReturnsBytes := by
  unfold Obligations.ExpandBytesThenPackReturnsBytes
  rintro n k r src s₁ t₁ s₂ hn rfl hwritten hexec hok hk hr hbuf hconfig hbase hcount
  obtain ⟨hin, hentries⟩ := exec_expandBytes_entries hexec hok (by omega)
  rw [← hcount]
  refine exec_packBits_of_flags (by omega) (by rw [hconfig]; omega) fun i hi => ?_
  have hentry := hentries (8 * k + i) (src k) (by omega)
  rw [(by omega : (8 * k + i) / 8 = k), (by omega : (8 * k + i) % 8 = i), ← Nat.add_assoc] at hentry
  rw [hbuf, hbase]
  exact hentry (hwritten k hk)

end Sys2Proof.Machine

/-! # Proofs of the float codec statements (spec/41_float_codec.md)

The two DECODE_FLOAT commands one branch at a time (O4, O5), the two ENCODE_FLOAT commands (O6, O7), and the laws that
ENCODE then DECODE returns the pattern (O40) and that DCBA is ABCD with its bytes reversed (O41). -/

namespace Sys2Proof.Machine

/-! ## Patterns, their halves and word pairs (rules R74-R78, R81) -/

/-- The byte reversal undoes itself (rule R82). -/
@[simp] theorem byteReverse_byteReverse (v : Word) : byteReverse (byteReverse v) = v := by
  refine BitVec.eq_of_getLsbD_eq fun i hi => ?_
  rw [byteReverse_getLsbD _ hi, byteReverse_getLsbD _ (by omega)]
  congr 1
  omega

/-- A pattern is the word pair of its two halves (rule R79). -/
@[simp] theorem wordPair_halves (v : Word) : wordPair (lowHalf v) (highHalf v) = v := by
  apply BitVec.eq_of_toNat_eq
  have hv := v.isLt
  rw [wordPair_toNat, lowHalf_toNat, highHalf_toNat]
  omega

theorem lowHalf_lt (v : Word) : (lowHalf v).toNat < 2 ^ 16 := by
  rw [lowHalf_toNat]
  exact Nat.mod_lt _ (by decide)

theorem highHalf_lt (v : Word) : (highHalf v).toNat < 2 ^ 16 := by
  have hv := v.isLt
  rw [highHalf_toNat]
  omega

/-- The range check of the DECODE_FLOAT commands as arithmetic (rules R75, R76). -/
theorem wordPairTooWide_iff {w0 w1 : Word} :
    (!fitsWidth 16 w0 || !fitsWidth 16 w1) = true ↔ 2 ^ 16 ≤ w0.toNat ∨ 2 ^ 16 ≤ w1.toNat := by
  simp only [Bool.or_eq_true, Bool.not_eq_true', fitsWidth_false_iff]

theorem not_wordPairTooWide {w0 w1 : Word} (h0 : w0.toNat < 2 ^ 16) (h1 : w1.toNat < 2 ^ 16) :
    ¬ (!fitsWidth 16 w0 || !fitsWidth 16 w1) = true :=
  mt wordPairTooWide_iff.1 (not_or.2 ⟨h0.not_ge, h1.not_ge⟩)

/-! ## The branches of the DECODE_FLOAT commands (rules R75, R76) -/

section Branches

variable {s : State}

theorem exec_decodeFloatAbcd_errRange (hwide : 2 ^ 16 ≤ s.oplA.toNat ∨ 2 ^ 16 ≤ s.oplB.toNat) :
    exec .decodeFloatAbcd s = .next (s.complete .errRange) :=
  congrArg _ (if_pos (wordPairTooWide_iff.2 hwide))

theorem exec_decodeFloatDcba_errRange (hwide : 2 ^ 16 ≤ s.oplA.toNat ∨ 2 ^ 16 ≤ s.oplB.toNat) :
    exec .decodeFloatDcba s = .next (s.complete .errRange) :=
  congrArg _ (if_pos (wordPairTooWide_iff.2 hwide))

section InRange

variable (hA : s.oplA.toNat < 2 ^ 16) (hB : s.oplB.toNat < 2 ^ 16)
include hA hB

theorem exec_decodeFloatAbcd_ok :
    exec .decodeFloatAbcd s = .next ((s.setRes0 (wordPair s.oplA s.oplB)).complete .ok) :=
  congrArg _ (if_neg (not_wordPairTooWide hA hB))

theorem exec_decodeFloatDcba_ok :
    exec .decodeFloatDcba s = .next ((s.setRes0 (byteReverse (wordPair s.oplA s.oplB))).complete .ok) :=
  congrArg _ (if_neg (not_wordPairTooWide hA hB))

end InRange

section Halves

variable {v : Word} (hA : s.oplA = lowHalf v) (hB : s.oplB = highHalf v)
include hA hB

/-- DECODE_FLOAT_ABCD of the halves of a pattern succeeds with the pattern. -/
theorem exec_decodeFloatAbcd_halves : exec .decodeFloatAbcd s = .next ((s.setRes0 v).complete .ok) := by
  rw [exec_decodeFloatAbcd_ok (hA ▸ lowHalf_lt v) (hB ▸ highHalf_lt v), hA, hB, wordPair_halves]

/-- DECODE_FLOAT_DCBA of the halves of a pattern succeeds with the pattern's byte reversal. -/
theorem exec_decodeFloatDcba_halves : exec .decodeFloatDcba s = .next ((s.setRes0 (byteReverse v)).complete .ok) := by
  rw [exec_decodeFloatDcba_ok (hA ▸ lowHalf_lt v) (hB ▸ highHalf_lt v), hA, hB, wordPair_halves]

end Halves

end Branches

/-! ## The commands -/

/-- Settles O4: the two branches of the command, the pattern by `wordPair_toNat`. -/
theorem decodeFloatAbcdAssembles : Obligations.DecodeFloatAbcdAssembles := by
  unfold Obligations.DecodeFloatAbcdAssembles
  refine ⟨decode_encode .decodeFloatAbcd, fun s =>
    ⟨fun hwide => failsWith_of_exec_eq_complete (exec_decodeFloatAbcd_errRange hwide), fun hA hB => ?_⟩⟩
  have hexec := exec_decodeFloatAbcd_ok hA hB
  refine ⟨_, hexec, exec_completesWith hexec, fun _ => rfl, rfl, ?_⟩
  rw [State.complete_res0, State.setRes0_res0, wordPair_toNat, Nat.mod_eq_of_lt hA, Nat.mod_eq_of_lt hB]

/-- Settles O5: the two branches of the command, the four bytes by `byteReverse_toNat` and `wordPair_toNat`. -/
theorem decodeFloatDcbaAssembles : Obligations.DecodeFloatDcbaAssembles := by
  unfold Obligations.DecodeFloatDcbaAssembles
  refine ⟨decode_encode .decodeFloatDcba, fun s =>
    ⟨fun hwide => failsWith_of_exec_eq_complete (exec_decodeFloatDcba_errRange hwide), fun hA hB => ?_⟩⟩
  have hexec := exec_decodeFloatDcba_ok hA hB
  refine ⟨_, hexec, exec_completesWith hexec, fun _ => rfl, rfl, ?_⟩
  rw [State.complete_res0, State.setRes0_res0, byteReverse_toNat, wordPair_toNat, Nat.mod_eq_of_lt hA,
    Nat.mod_eq_of_lt hB]
  omega

/-- Settles O6: the command has one branch, and its results are the halves of the pattern. -/
theorem encodeFloatAbcdSplits : Obligations.EncodeFloatAbcdSplits := by
  unfold Obligations.EncodeFloatAbcdSplits
  exact ⟨decode_encode .encodeFloatAbcd, fun s =>
    ⟨_, rfl, exec_completesWith (i := .encodeFloatAbcd) rfl, fun _ => rfl, lowHalf_toNat _, highHalf_toNat _⟩⟩

/-- Settles O7: the command has one branch, and its results are the halves of the reversed pattern. -/
theorem encodeFloatDcbaSplits : Obligations.EncodeFloatDcbaSplits := by
  unfold Obligations.EncodeFloatDcbaSplits
  refine ⟨decode_encode .encodeFloatDcba, fun s =>
    ⟨_, rfl, exec_completesWith (i := .encodeFloatDcba) rfl, fun _ => rfl, ?_, ?_⟩⟩
  · refine (lowHalf_toNat _).trans ?_
    rw [byteReverse_toNat]
    omega
  · refine (highHalf_toNat _).trans ?_
    rw [byteReverse_toNat]
    omega

/-! ## The laws of the float codec (rules R79, R80) -/

/-- Settles O40: ENCODE leaves the halves of the pattern, and DECODE puts them together again
(`exec_decodeFloatAbcd_halves`); in the order DCBA the two byte reversals cancel (`byteReverse_byteReverse`). -/
theorem encodeThenDecodeReturnsPattern : Obligations.EncodeThenDecodeReturnsPattern := by
  unfold Obligations.EncodeThenDecodeReturnsPattern
  refine fun s₁ s₂ => ⟨⟨_, rfl, rfl, fun hA hB => ?_⟩, ⟨_, rfl, rfl, fun hA hB => ?_⟩⟩
  · exact ⟨_, exec_decodeFloatAbcd_halves hA hB, rfl, rfl⟩
  · exact ⟨_, exec_decodeFloatDcba_halves hA hB, rfl, byteReverse_byteReverse s₁.oplA⟩

/-- Settles O41: both commands succeed on the pair, and BSWAP32 reverses the bytes of the ABCD pattern. -/
theorem dcbaIsByteReversedAbcd : Obligations.DcbaIsByteReversedAbcd := by
  unfold Obligations.DcbaIsByteReversedAbcd
  intro s₁ s₂ s₃ hA hB hA₂ hB₂
  have habcd := exec_decodeFloatAbcd_ok (hA₂ ▸ hA) (hB₂ ▸ hB)
  rw [hA₂, hB₂] at habcd
  exact ⟨_, _, _, exec_decodeFloatDcba_ok hA hB, habcd, rfl, rfl, rfl, rfl⟩

end Sys2Proof.Machine

/-! # Proofs of the byte swap statements (spec/42_byte_swap.md)

The command BSWAP32 (O8) and the laws of its function (O42): a byte reversal is a permutation of the bit positions that
undoes itself. -/

namespace Sys2Proof.Machine

/-- The bit position that bit `i` of a byte reversal is read from (rule R81). -/
def byteReversedBit (i : Nat) : Nat := (3 - i / 8) * 8 + i % 8

/-- The byte reversal moves every one of the 32 bits, and no two of them to one place. -/
theorem byteReversedBit_perm : ((List.range 32).map byteReversedBit).Perm (List.range 32) := by decide

/-- The byte reversal keeps the number of set bits (rule R82). -/
theorem byteReverse_countBits (v : Word) :
    (List.range 32).countP (fun i => (byteReverse v).getLsbD i) = (List.range 32).countP (fun i => v.getLsbD i) :=
  calc (List.range 32).countP (fun i => (byteReverse v).getLsbD i)
    _ = (List.range 32).countP ((fun i => v.getLsbD i) ∘ byteReversedBit) :=
      List.countP_congr fun _ hi => Bool.eq_iff_iff.1 (byteReverse_getLsbD v (List.mem_range.1 hi))
    _ = ((List.range 32).map byteReversedBit).countP (fun i => v.getLsbD i) := List.countP_map.symm
    _ = (List.range 32).countP (fun i => v.getLsbD i) := byteReversedBit_perm.countP_eq _

/-- Settles O8: the command has one branch, and its result is the byte reversal as arithmetic (`byteReverse_toNat`). -/
theorem bswap32ReversesBytes : Obligations.Bswap32ReversesBytes := by
  unfold Obligations.Bswap32ReversesBytes
  exact ⟨decode_encode .bswap32, fun s =>
    ⟨_, rfl, exec_completesWith (i := .bswap32) rfl, fun _ => rfl, rfl, byteReverse_toNat s.oplA⟩⟩

/-- Settles O42: the involution is `byteReverse_byteReverse`, the set bits are `byteReverse_countBits`, and the two fixed
patterns are evaluated. -/
theorem byteReversalLaws : Obligations.ByteReversalLaws := by
  unfold Obligations.ByteReversalLaws
  exact ⟨byteReverse_byteReverse, by decide, by decide, byteReverse_countBits⟩

end Sys2Proof.Machine

/-! # Proofs of the hex codec statements (spec/43_hex_codec.md)

NIBBLE_TO_HEX, BYTE_TO_HEX and HEX_TO_BYTE one branch at a time (O9, O10, O11), and the law that HEX_TO_BYTE gives back
the byte BYTE_TO_HEX wrote out (O43). -/

namespace Sys2Proof.Machine

/-! ## Nibbles, digits and pairs of digits (rules R84-R86) -/

/-- The low nibble of an operand. -/
theorem lowNibble_toNat (v : Word) : (v.extractLsb' 0 4).toNat = v.toNat % 16 := by
  rw [toNat_slice]
  omega

/-- The high nibble of an operand that fits in a byte. -/
theorem highNibble_toNat {v : Word} (hfits : v.toNat < 2 ^ 8) : (v.extractLsb' 4 4).toNat = v.toNat / 16 := by
  rw [toNat_slice]
  omega

/-- A digit in a result register keeps its code (rules R56, R84). -/
theorem hexCharWord_toNat (n : Nibble) :
    ((hexChar n).setWidth 32).toNat = if n.toNat ≤ 9 then 0x30 + n.toNat else 0x41 + (n.toNat - 10) := by
  rw [BitVec.toNat_setWidth_of_le (by decide), hexChar_toNat]

/-- A BUF write of a digit held in a result register writes the digit (rule R91). -/
theorem ofNat_hexCharWord (n : Nibble) : BitVec.ofNat 8 ((hexChar n).setWidth 32).toNat = hexChar n := by
  rw [BitVec.toNat_setWidth_of_le (by decide), BitVec.ofNat_toNat, BitVec.setWidth_eq]

/-- The character of the digit `v` is valid and stands for `v` (rules R85, R86). -/
theorem isHex_and_hexVal_of_digit {c : Byte} {v : Nat}
    (h : (v ≤ 9 ∧ c.toNat = 0x30 + v) ∨ (10 ≤ v ∧ v ≤ 15 ∧ c.toNat = 0x37 + v)) :
    isHex c = true ∧ (hexVal c).toNat = v := by
  have hhex : isHex c = true := (isHex_iff c).2 (by omega)
  refine ⟨hhex, ?_⟩
  rw [hexVal_toNat hhex]
  split <;> omega

/-- Two nibbles as a byte in a result register (rules R8, R90). -/
theorem nibblePairWord_toNat (hi lo : Nibble) : ((hi ++ lo).setWidth 32).toNat = 16 * hi.toNat + lo.toNat := by
  rw [BitVec.toNat_setWidth_of_le (by decide), toNat_append_eq]
  omega

/-- In a legal configuration the position after a pair inside BUF does not wrap (rule R90). -/
theorem positionAfterPair_toNat {s : State} (hlegal : s.config.legal)
    (hin : bufAddr s.oplA s.oplB + 2 ≤ s.config.bufSize) : (s.oplB + 2#32).toNat = s.oplB.toNat + 2 := by
  obtain ⟨-, hsize, -⟩ := hlegal
  unfold bufAddr at hin
  exact BitVec.toNat_add_of_lt (by simp only [BitVec.toNat_ofNat]; omega)

/-- The range check of the two encoding commands as arithmetic (rules R88, R89). -/
theorem tooWide_iff {n : Nat} {v : Word} : (!fitsWidth n v) = true ↔ 2 ^ n ≤ v.toNat := by
  rw [Bool.not_eq_true', fitsWidth_false_iff]

section Branches

variable {s : State}

/-! ## The branches of NIBBLE_TO_HEX and BYTE_TO_HEX (rules R88, R89) -/

theorem exec_nibbleToHex_errRange (hwide : 2 ^ 4 ≤ s.oplA.toNat) :
    exec .nibbleToHex s = .next (s.complete .errRange) :=
  congrArg _ (if_pos (tooWide_iff.2 hwide))

theorem exec_nibbleToHex_ok (hfits : s.oplA.toNat < 2 ^ 4) :
    exec .nibbleToHex s = .next ((s.setRes0 ((hexChar (s.oplA.extractLsb' 0 4)).setWidth 32)).complete .ok) :=
  congrArg _ (if_neg (mt tooWide_iff.1 hfits.not_ge))

theorem exec_byteToHex_errRange (hwide : 2 ^ 8 ≤ s.oplA.toNat) : exec .byteToHex s = .next (s.complete .errRange) :=
  congrArg _ (if_pos (tooWide_iff.2 hwide))

theorem exec_byteToHex_ok (hfits : s.oplA.toNat < 2 ^ 8) :
    exec .byteToHex s = .next (((s.setRes0 ((hexChar (s.oplA.extractLsb' 4 4)).setWidth 32)).setRes1
      ((hexChar (s.oplA.extractLsb' 0 4)).setWidth 32)).complete .ok) :=
  congrArg _ (if_neg (mt tooWide_iff.1 hfits.not_ge))

/-! ## The branches of HEX_TO_BYTE (rule R90) -/

theorem exec_hexToByte_errAddr (hout : s.config.bufSize < bufAddr s.oplA s.oplB + 2) :
    exec .hexToByte s = .next (s.complete .errAddr) :=
  congrArg _ (if_pos (by rw [rangeInBuf_false_iff.2 ⟨by decide, hout⟩, Bool.not_false]))

section InRange

variable (hin : bufAddr s.oplA s.oplB + 2 ≤ s.config.bufSize)
include hin

/-- Past the address check, the two characters read decide. A written one is the byte in BUF; one that nothing has
written is a free value, and reading it moves only the draw counter (log 3). -/
theorem exec_hexToByte_inRange :
    ∃ c0 c1 n, (∀ c, s.buf.read? (bufAddr s.oplA s.oplB) = some c → c0 = c) ∧
      (∀ c, s.buf.read? (bufAddr s.oplA s.oplB + 1) = some c → c1 = c) ∧
      exec .hexToByte s = .next (
        if isHex c0 = true ∧ isHex c1 = true then
          (s.withResults s.buf n ((hexVal c0 ++ hexVal c1).setWidth 32) (s.oplB + 2#32)).complete .ok
        else (s.withResults s.buf n s.res0 s.res1).complete .errHexChar) := by
  obtain ⟨c0, n0, hread0, hwritten0⟩ := s.memRead_eq (bufAddr s.oplA s.oplB)
  obtain ⟨c1, n, hread1, hwritten1⟩ := State.memRead_eq { s with freeCount := n0 } (bufAddr s.oplA s.oplB + 1)
  refine ⟨c0, c1, n, fun c hc => (hwritten0 c hc).1, fun c hc => (hwritten1 c hc).1, ?_⟩
  simp only [exec, execHexToByte, rangeInBuf_iff.2 (.inr hin), hread0, hread1, Bool.not_true, Bool.false_eq_true,
    if_false]
  cases isHex c0 <;> cases isHex c1 <;> rfl

/-- A written byte that is no digit is refused, in either place (rule R87). -/
theorem exec_hexToByte_errHexChar {k : Nat} {c : Byte} (hk : k < 2)
    (hread : s.buf.read? (bufAddr s.oplA s.oplB + k) = some c) (hbad : isHex c ≠ true) :
    ∃ n, exec .hexToByte s = .next ((s.withResults s.buf n s.res0 s.res1).complete .errHexChar) := by
  obtain ⟨c0, c1, n, hwritten0, hwritten1, hexec⟩ := exec_hexToByte_inRange hin
  refine ⟨n, hexec.trans (congrArg _ (if_neg fun ⟨hhex0, hhex1⟩ => hbad ?_))⟩
  obtain rfl | rfl : k = 0 ∨ k = 1 := by omega
  · exact hwritten0 c hread ▸ hhex0
  · exact hwritten1 c hread ▸ hhex1

/-- Two written digits are decoded. -/
theorem exec_hexToByte_ok {c0 c1 : Byte} (hread0 : s.buf.read? (bufAddr s.oplA s.oplB) = some c0)
    (hread1 : s.buf.read? (bufAddr s.oplA s.oplB + 1) = some c1) (hhex0 : isHex c0 = true) (hhex1 : isHex c1 = true) :
    ∃ n, exec .hexToByte s = .next
      ((s.withResults s.buf n ((hexVal c0 ++ hexVal c1).setWidth 32) (s.oplB + 2#32)).complete .ok) := by
  obtain ⟨c0', c1', n, hwritten0, hwritten1, hexec⟩ := exec_hexToByte_inRange hin
  obtain rfl := hwritten0 c0 hread0
  obtain rfl := hwritten1 c1 hread1
  exact ⟨n, hexec.trans (congrArg _ (if_pos ⟨hhex0, hhex1⟩))⟩

end InRange

end Branches

/-! ## The commands -/

/-- Settles O9: the two branches of the command, the digit's code by `hexCharWord_toNat`. -/
theorem nibbleToHexGivesDigit : Obligations.NibbleToHexGivesDigit := by
  unfold Obligations.NibbleToHexGivesDigit
  refine ⟨decode_encode .nibbleToHex, fun s =>
    ⟨fun hwide => failsWith_of_exec_eq_complete (exec_nibbleToHex_errRange hwide), fun hfits => ?_⟩⟩
  have hexec := exec_nibbleToHex_ok hfits
  refine ⟨_, hexec, exec_completesWith hexec, fun _ => rfl, rfl, ?_⟩
  rw [State.complete_res0, State.setRes0_res0, hexCharWord_toNat, lowNibble_toNat, Nat.mod_eq_of_lt (b := 16) hfits]

/-- Settles O10: the two branches of the command, the digits' codes by `hexCharWord_toNat`. -/
theorem byteToHexGivesPair : Obligations.ByteToHexGivesPair := by
  unfold Obligations.ByteToHexGivesPair
  refine ⟨decode_encode .byteToHex, fun s =>
    ⟨fun hwide => failsWith_of_exec_eq_complete (exec_byteToHex_errRange hwide), fun hfits => ?_⟩⟩
  have hexec := exec_byteToHex_ok hfits
  refine ⟨_, hexec, exec_completesWith hexec, fun _ => rfl, ?_, ?_⟩
  · rw [State.complete_res0, State.setRes1_res0, State.setRes0_res0, hexCharWord_toNat, highNibble_toNat hfits]
  · rw [State.complete_res1, State.setRes1_res1, hexCharWord_toNat, lowNibble_toNat]

/-- Settles O11: the three branches of the command, the byte by `isHex_and_hexVal_of_digit`; on bytes that nothing has
written either of the last two is taken (`exec_hexToByte_inRange`). -/
theorem hexToByteDecodesPair : Obligations.HexToByteDecodesPair := by
  unfold Obligations.HexToByteDecodesPair
  refine ⟨decode_encode .hexToByte, fun s =>
    ⟨fun hout => failsWith_of_exec_eq_complete (exec_hexToByte_errAddr hout),
      fun k c hk hin hread hbad => ?_, fun c0 c1 v0 v1 hlegal hin hread0 hread1 hdigit0 hdigit1 => ?_, fun hin => ?_⟩⟩
  · obtain ⟨n, hexec⟩ := exec_hexToByte_errHexChar hin hk hread (mt (isHex_iff c).1 hbad)
    exact ⟨_, hexec, exec_completesWith hexec, fun _ => rfl, rfl, rfl⟩
  · obtain ⟨hhex0, rfl⟩ := isHex_and_hexVal_of_digit hdigit0
    obtain ⟨hhex1, rfl⟩ := isHex_and_hexVal_of_digit hdigit1
    obtain ⟨n, hexec⟩ := exec_hexToByte_ok hin hread0 hread1 hhex0 hhex1
    exact ⟨_, hexec, exec_completesWith hexec, fun _ => rfl, nibblePairWord_toNat _ _,
      positionAfterPair_toNat hlegal hin⟩
  · obtain ⟨c0, c1, n, -, -, hexec⟩ := exec_hexToByte_inRange hin
    by_cases hhex : isHex c0 = true ∧ isHex c1 = true
    · rw [if_pos hhex] at hexec
      exact ⟨_, hexec, fun _ => rfl, .inl (exec_completesWith hexec)⟩
    · rw [if_neg hhex] at hexec
      exact ⟨_, hexec, fun _ => rfl, .inr ⟨exec_completesWith hexec, rfl, rfl⟩⟩

/-! ## Decoding gives back what encoding wrote (rule R91) -/

/-- Settles O43: BUF holds the digits of the two nibbles, and HEX_TO_BYTE gives back the nibbles (`hexVal_hexChar`),
which are the byte. -/
theorem byteToHexToByte : Obligations.ByteToHexToByte := by
  unfold Obligations.ByteToHexToByte
  rintro b p s₁ s₂ hb rfl
  refine ⟨_, exec_byteToHex_ok hb, rfl, ?_⟩
  rintro hlegal hin hbuf rfl
  simp only [State.complete_res0, State.complete_res1, State.setRes1_res0, State.setRes1_res1, State.setRes0_res0,
    ofNat_hexCharWord] at hbuf
  have hread0 : s₂.buf.read? (bufAddr s₂.oplA s₂.oplB) = some (hexChar (s₁.oplA.extractLsb' 4 4)) := by
    rw [hbuf, Memory.read?_write_other _ _ (by unfold bufAddr; omega)]
    exact Memory.read?_write_same _ _ _
  have hread1 : s₂.buf.read? (bufAddr s₂.oplA s₂.oplB + 1) = some (hexChar (s₁.oplA.extractLsb' 0 4)) := by
    rw [hbuf]
    exact Memory.read?_write_same _ _ _
  obtain ⟨n, hexec⟩ := exec_hexToByte_ok hin hread0 hread1 (isHex_hexChar _) (isHex_hexChar _)
  refine ⟨_, hexec, rfl, ?_, positionAfterPair_toNat hlegal hin⟩
  calc ((hexVal (hexChar (s₁.oplA.extractLsb' 4 4)) ++ hexVal (hexChar (s₁.oplA.extractLsb' 0 4))).setWidth 32).toNat
    _ = 16 * (s₁.oplA.toNat / 16) + s₁.oplA.toNat % 16 := by
      rw [hexVal_hexChar, hexVal_hexChar, nibblePairWord_toNat, highNibble_toNat hb, lowNibble_toNat]
    _ = s₁.oplA.toNat := Nat.div_add_mod _ _

end Sys2Proof.Machine

/-! # Proofs of the exception statements (spec/60_exceptions.md)

The errors each command can report (O37), a unit turn that runs a command (O16) or passes (O18), and the end of every
wait for a busy unit (O44). -/

namespace Sys2Proof.Machine

/-! ## The errors of a command (rules R93, R96) -/

/-- The state carries a code that rule R96 allows command `i` to complete with. -/
def ReportsOwnError (i : Instr) (t : State) : Prop := t.code = .ok ∨ t.code ∈ reportableErrors i

section Reports

variable {i : Instr} {s t : State}

/-- A completion carries the code it is given. -/
theorem ReportsOwnError.complete {c : ResultCode} (hc : c = .ok ∨ c ∈ reportableErrors i) :
    ReportsOwnError i (s.complete c) := hc

/-- A check of a command picks one of two states. -/
theorem ReportsOwnError.ite {p : Prop} [Decidable p] (hs : ReportsOwnError i s) (ht : ReportsOwnError i t) :
    ReportsOwnError i (if p then s else t) := by
  split
  · exact hs
  · exact ht

/-- No command of rule R96 has ERR_ILLEGAL in its row: that code is the unit's own, for an illegal word (rule R59). -/
theorem errIllegal_notMem_reportableErrors (i : Instr) : .errIllegal ∉ reportableErrors i := by
  cases i <;> decide

theorem ReportsOwnError.ne_errIllegal (h : ReportsOwnError i t) : t.code ≠ .errIllegal := by
  intro hcode
  obtain hok | hmem := h
  · rw [hcode] at hok
    cases hok
  · exact errIllegal_notMem_reportableErrors i (hcode ▸ hmem)

/-- Every branch of every command completes with OK or with an error of the command's row of rule R96. -/
theorem exec_reportsOwnError (h : exec i s = .next t) : ReportsOwnError i t := by
  cases i with
  | encodeFloatAbcd | encodeFloatDcba | bswap32 =>
    cases h
    exact .complete (by decide)
  | decodeFloatAbcd | decodeFloatDcba | nibbleToHex | byteToHex =>
    cases h
    exact .ite (.complete (by decide)) (.complete (by decide))
  | expandByte | packBits | hexToByte =>
    cases h
    exact .ite (.complete (by decide)) (.ite (.complete (by decide)) (.complete (by decide)))
  | expandBytes =>
    cases h
    exact .ite (.complete (by decide))
      (.ite (.complete (by decide)) (.ite (.complete (by decide)) (.complete (by decide))))

end Reports

/-- Settles O37, from the branches of the commands (`exec_reportsOwnError`). -/
theorem commandsReportTheirErrors : Obligations.CommandsReportTheirErrors := by
  unfold Obligations.CommandsReportTheirErrors
  intro i s t hexec
  have hreports := exec_reportsOwnError hexec
  exact ⟨hreports.ne_errIllegal, hreports⟩

/-! ## A unit turn taken off the schedule (rules R92, R106) -/

/-- The word of a command, placed as a 32-bit number, is that command's word in CMDL (log 12). -/
theorem withFetchWord_encode (s : State) (i : Instr) :
    s.withFetchWord 32 (encode i).toNat = s.placeCommand (encode i) := by
  rw [State.withFetchWord, Nat.mod_eq_of_lt (encode i).isLt, BitVec.ofNat_toNat, BitVec.setWidth_eq]

/-- Settles O16: the placed unit turn comes first (`step_of_schedule`) and decodes the placed word (`decode_encode`). -/
theorem placedCommandRunsNext : Obligations.PlacedCommandRunsNext := by
  unfold Obligations.PlacedCommandRunsNext
  intro s i
  calc step (s.withFetchWord 32 (encode i).toNat)
    _ = step (s.placeCommand (encode i)) := by rw [withFetchWord_encode]
    _ = unitTurn ((s.placeCommand (encode i)).withSchedule s.schedule) :=
      step_of_schedule (s := s.placeCommand (encode i)) (turn := .unit) rfl rfl
    _ = exec i ((s.placeCommand (encode i)).withSchedule s.schedule) := unitTurn_of_decode rfl (decode_encode i)

/-- Settles O18: the step is a unit turn (`step_of_schedule`), which passes (`unitTurn_of_idle`). -/
theorem unitTurnPassesWhenIdle : Obligations.UnitTurnPassesWhenIdle := by
  unfold Obligations.UnitTurnPassesWhenIdle
  intro s rest hfault hidle hsched
  exact (step_of_schedule hfault hsched).trans (unitTurn_of_idle (s := s.withSchedule rest) hidle)

/-! ## Every wait for a busy unit ends (rules R92, R120)

Each turn uses up one entry of the schedule, and once it is empty a busy unit goes first. -/

section Turns

variable {s t : State}

/-- A unit turn with BUSY = 1 completes the latched command or the illegal word. -/
theorem unitTurn_completesWith (hbusy : s.busy = true) (h : unitTurn s = .next t) : CompletesWith t.code s t := by
  cases hdecode : decode s.cmdl with
  | ok i => exact exec_completesWith ((unitTurn_of_decode hbusy hdecode).symm.trans h)
  | error r =>
    have hillegal : unitTurn s = .next (s.complete .errIllegal) := by
      simp only [unitTurn, hbusy, if_true, unitStep, hdecode]
    obtain rfl : s.complete .errIllegal = t := by rw [hillegal] at h; injection h
    exact (execShape_complete s .errIllegal).completesWith

theorem unitTurn_schedule (h : unitTurn s = .next t) : t.schedule = s.schedule := by
  cases hbusy : s.busy with
  | true => exact (unitTurn_completesWith hbusy h).frame.schedule
  | false =>
    obtain rfl : s = t := by rw [unitTurn_of_idle hbusy] at h; injection h
    rfl

/-- No host line touches the turns to come. -/
theorem HostEffect.schedule {l : Line} (h : HostEffect l s t) : t.schedule = s.schedule := by
  cases h with
  | write r e w n g => exact (regWrite_keepsOutside r w { s with freeCount := n }).2.1
  | host | bufWrite | bufRead | mark => rfl

theorem hostTurn_schedule (h : hostTurn s = .next t) : t.schedule = s.schedule := by
  cases hline : s.hostLine? with
  | some l => exact (runLine_effect ((hostTurn_of_line hline).symm.trans h)).schedule
  | none =>
    obtain rfl : s = t := by rw [hostTurn_of_finished hline] at h; injection h
    rfl

/-- No turn changes the turns after it (rule R46; log 15 for a reset). -/
theorem takeTurn_schedule {turn : Turn} (h : takeTurn turn s = .next t) : t.schedule = s.schedule := by
  cases turn with
  | unit => exact unitTurn_schedule h
  | host => exact hostTurn_schedule h
  | reset => cases h; rfl

/-- With the turns used up, a busy unit completes at the next step (log 4). -/
theorem step_completes_of_noTurns (hfault : s.hostFault = none) (hbusy : s.busy = true) (hsched : s.schedule = []) :
    ∃ t, step s = .next t ∧ t.busy = false := by
  obtain ⟨t, hturn⟩ := unitTurn_next s
  have hstep : step s = unitTurn s := by simp [step, agentStep, nextTurn, takeTurn, hfault, hsched, hbusy]
  exact ⟨t, hstep.trans hturn, (unitTurn_completesWith hbusy hturn).busy⟩

end Turns

/-- Within `n` steps from `s` BUSY is 0, a host-protocol fault is marked, or the run is refused. -/
def WaitEndsWithin (n : Nat) (s : State) : Prop :=
  ∃ k, k ≤ n ∧
    ((∃ t, runSteps k s = .next t ∧ (t.busy = false ∨ t.hostFault ≠ none)) ∨ ∃ r, runSteps k s = .refused r)

section Waiting

variable {n : Nat} {s t : State}

theorem WaitEndsWithin.now (h : s.busy = false ∨ s.hostFault ≠ none) : WaitEndsWithin n s :=
  ⟨0, Nat.zero_le n, .inl ⟨s, rfl, h⟩⟩

theorem WaitEndsWithin.after_step (hstep : step s = .next t) (h : WaitEndsWithin n t) : WaitEndsWithin (n + 1) s := by
  obtain ⟨k, hk, hrun⟩ := h
  refine ⟨k + 1, Nat.succ_le_succ hk, ?_⟩
  rwa [runSteps_succ_next hstep]

theorem WaitEndsWithin.of_refused {r : Refusal} (h : step s = .refused r) : WaitEndsWithin (n + 1) s :=
  ⟨1, Nat.le_add_left 1 n, .inr ⟨r, by rw [runSteps_succ, h]⟩⟩

/-- By induction on the turns to come: a turn that does not end the wait leaves one fewer of them. -/
theorem waitEndsWithin_turns {turns : List Turn} (hsched : s.schedule = turns) (hfault : s.hostFault = none)
    (hbusy : s.busy = true) : WaitEndsWithin (turns.length + 1) s := by
  induction turns generalizing s with
  | nil =>
    obtain ⟨t, hstep, hidle⟩ := step_completes_of_noTurns hfault hbusy hsched
    exact .after_step hstep (.now (.inl hidle))
  | cons turn rest ih =>
    have hstep := step_of_schedule hfault hsched
    cases hturn : takeTurn turn (s.withSchedule rest) with
    | fault f => exact absurd hturn (takeTurn_ne_fault turn _ f)
    | refused r => exact .of_refused (hstep.trans hturn)
    | next t =>
      refine .after_step (hstep.trans hturn) ?_
      by_cases hended : t.busy = false ∨ t.hostFault ≠ none
      · exact .now hended
      · obtain ⟨hbusy', hfault'⟩ := not_or.1 hended
        exact ih (takeTurn_schedule hturn) (not_not.1 hfault') (Bool.eq_true_of_not_eq_false hbusy')

end Waiting

/-- Settles O44, by induction on the schedule (`waitEndsWithin_turns`). -/
theorem busyUnitEventuallySteps : Obligations.BusyUnitEventuallySteps := by
  unfold Obligations.BusyUnitEventuallySteps
  intro s hfault hbusy
  exact waitEndsWithin_turns rfl hfault hbusy

end Sys2Proof.Machine

/-! # Proofs of the reset statements (spec/70_reset_and_hazards.md)

How BUF reads where nothing has written it (O26). -/

namespace Sys2Proof.Machine

/-- No BUF byte is written in the reset state (rule R109). -/
theorem reset_buf_read (a : Nat) : State.reset.buf.read? a = none :=
  findKey_none_of_lt fun _ hc => absurd hc List.not_mem_nil

/-- Settles O26: a read of an unwritten byte is one draw (`State.memRead_unwritten`), and BUF is as it was, so the
second read draws again. -/
theorem unwrittenByteReadsFresh : Obligations.UnwrittenByteReadsFresh := by
  unfold Obligations.UnwrittenByteReadsFresh
  refine ⟨reset_buf_read, fun s a hunwritten => ?_⟩
  have hsecond : (State.memRead a { s with freeCount := s.freeCount + 1 }).1 = Config.freeByte (s.freeCount + 1) :=
    congrArg Prod.fst (State.memRead_unwritten (s := { s with freeCount := s.freeCount + 1 }) hunwritten)
  exact ⟨_, _, State.memRead_unwritten hunwritten, rfl, rfl, hunwritten, hsecond⟩

end Sys2Proof.Machine
